-- ==== Sys2Proof/Config.lean ====
section
/-! DEFINITION. The implementation parameters of the 150ASM core (`00_scope.md` R6, R7). -/

namespace Sys2Proof

/-- The parameters of `00_scope.md` R6. `CW`, the width of `COUNT`, is not among them: the model counts with an
unbounded natural, which R6 allows (log 7). -/
structure Config where
  /-- `XLEN`, the width in bits of each register cell. -/
  xlen : Nat
  /-- `CEILING`, the largest value the execution counter may reach without a fault. -/
  ceiling : Nat
  /-- `PROG_MAX`, the largest number of lines of a program. -/
  progMax : Nat
  /-- `LINE_MAX`, the largest number of characters of a raw line, terminators included. -/
  lineMax : Nat
  /-- `TOKEN_MAX`, the largest number of characters of one token. -/
  tokenMax : Nat
deriving DecidableEq, Repr

/-- The values used by every worked example of `95_test_vectors.md`. `XLEN` 32 and `CEILING` 150 are the defaults of
`00_scope.md` R6; the three size bounds are OPEN there and these are its example values (DESIGN CHOICE, log 1). -/
def Config.default : Config :=
  { xlen := 32, ceiling := 150, progMax := 256, lineMax := 64, tokenMax := 16 }

/-- The constraints R6 and R7 of `00_scope.md` put on the parameters. -/
def Config.valid (c : Config) : Bool :=
  decide (c.progMax < 2 ^ c.xlen) && decide (4 ≤ c.tokenMax)

end Sys2Proof
end

