-- ==== Sys2Proof/Word.lean ====
section
/-! DEFINITION. The basic types of the 150ASM core: characters, strings of characters and register values. -/

namespace Sys2Proof

/-- A character is one 8-bit byte (`00_scope.md` R8; log 14). -/
abbrev Byte := BitVec 8

/-- One raw line of the program store: a string of characters (`30_encoding.md` R45). -/
abbrev Line := List Byte

/-- One of the space-separated parts of a line (`00_scope.md` R9). -/
abbrev Token := List Byte

/-! A register value is a plain natural number: `00_scope.md` R8 says that register values are naturals in `[0, 2 ^ XLEN - 1]`. `XLEN` is a
parameter of the machine, so the bound is an invariant, which every step keeps, and not part of a type (log 3). -/

end Sys2Proof
end

