-- ==== Sys2Proof/Syntax.lean ====
section
/-! DEFINITION. The instructions of the 150ASM core as data: registers, operands, the ten opcodes, the ten instructions,
and the results of cutting a line. -/

namespace Sys2Proof

/-- The four named registers (`10_state.md` R11, R12; `30_encoding.md` R51). -/
inductive Reg where
  /-- `REGA`, `x[0]`. -/
  | a
  /-- `REGB`, `x[1]`. -/
  | b
  /-- `REGC`, `x[2]`. -/
  | c
  /-- `REGX`, `x[3]`, the flag register. -/
  | x
deriving DecidableEq, Repr

/-- The four registers in the order of `30_encoding.md` R51. -/
def Reg.all : List Reg := [.a, .b, .c, .x]

/-- The register index of `00_scope.md` R8 and `30_encoding.md` R51. -/
def Reg.index : Reg → Nat
  | .a => 0
  | .b => 1
  | .c => 2
  | .x => 3

/-- An operand (`40_operand_resolver.md` R65): every token is a register operand or a literal operand. A literal is
kept as its signed reading, `sval` of `42_validator.md` R92: it decides both what the validator tests and what the
resolver answers (log 8). -/
inductive Operand where
  | reg (r : Reg)
  | lit (v : Int)
deriving DecidableEq, Repr

/-- The ten opcodes (`30_encoding.md` R49). -/
inductive Opcode where
  | nop
  | set
  | and
  | or
  | add
  | sub
  | shl
  | shr
  | jmp
  | prt
deriving DecidableEq, Repr

/-- The ten opcodes in the order of `30_encoding.md` R49. -/
def Opcode.all : List Opcode := [.nop, .set, .and, .or, .add, .sub, .shl, .shr, .jmp, .prt]

/-- The dispatch index `idx` of `30_encoding.md` R49. -/
def Opcode.index : Opcode → Nat
  | .nop => 0
  | .set => 1
  | .and => 2
  | .or => 3
  | .add => 4
  | .sub => 5
  | .shl => 6
  | .shr => 7
  | .jmp => 8
  | .prt => 9

/-- An instruction with the operands its format uses (`30_encoding.md` R47, R49). Operand fields that an opcode does not
use are ignored by the machine (`30_encoding.md` R58) and are not kept. -/
inductive Instr where
  /-- `NOP`, format F0. -/
  | nop
  /-- `SET arg1 arg2`, format F2. -/
  | set (dst src : Operand)
  /-- `AND arg1 arg2`, format F2. -/
  | and (dst src : Operand)
  /-- `OR arg1 arg2`, format F2. -/
  | or (dst src : Operand)
  /-- `ADD arg1 arg2`, format F2. -/
  | add (dst src : Operand)
  /-- `SUB arg1 arg2`, format F2. -/
  | sub (dst src : Operand)
  /-- `SHL arg1 arg2`, format F2. -/
  | shl (dst amount : Operand)
  /-- `SHR arg1 arg2`, format F2. -/
  | shr (dst amount : Operand)
  /-- `JMP arg1`, format F1. -/
  | jmp (target : Operand)
  /-- `PRT arg1`, format F1. -/
  | prt (what : Operand)
deriving DecidableEq, Repr

/-- The opcode of an instruction. -/
def Instr.opcode : Instr → Opcode
  | .nop => .nop
  | .set _ _ => .set
  | .and _ _ => .and
  | .or _ _ => .or
  | .add _ _ => .add
  | .sub _ _ => .sub
  | .shl _ _ => .shl
  | .shr _ _ => .shr
  | .jmp _ => .jmp
  | .prt _ => .prt

/-- The operands an instruction uses, in field order (`30_encoding.md` R49, column "operands used"). -/
def Instr.operands : Instr → List Operand
  | .nop => []
  | .set p q => [p, q]
  | .and p q => [p, q]
  | .or p q => [p, q]
  | .add p q => [p, q]
  | .sub p q => [p, q]
  | .shl p q => [p, q]
  | .shr p q => [p, q]
  | .jmp p => [p]
  | .prt p => [p]

/-- The ephemeral triple the tokenizer makes of an instruction line (`41_decoder.md` R75). An absent field is the empty
token (`41_decoder.md` R78; log 13). -/
structure Decoded where
  opcode : Token
  arg1 : Token
  arg2 : Token
deriving DecidableEq, Repr

/-- The three results of the tokenizer (`41_decoder.md` R75). -/
inductive LineResult where
  /-- A comment line (R77). -/
  | comment
  /-- A line cut into its three fields (R78). -/
  | decoded (d : Decoded)
  /-- A field is longer than `TOKEN_MAX` (R79). -/
  | decodeFault
deriving DecidableEq, Repr

/-- What a whole line is to the machine once its opcode field is looked up (`41_decoder.md` R75, `30_encoding.md` R49). -/
inductive LineMeaning where
  /-- A comment line, skipped and counted (`45_engine.md` R138). -/
  | comment
  /-- An instruction line whose opcode field is one of the ten mnemonics. -/
  | instr (i : Instr)
  /-- Rejected: a field is longer than `TOKEN_MAX` (`41_decoder.md` R79). -/
  | overlongField
  /-- Rejected: the opcode field is none of the ten mnemonics (`42_validator.md` R90). -/
  | unknownOpcode (opcode : Token)
deriving DecidableEq, Repr

end Sys2Proof
end

