-- ==== Sys2Proof/WellFormed.lean ====
section
/-! DEFINITION. Which instructions are well formed: the operand checks of the validator (`42_validator.md` R91 to R97) said
of instructions as data, and which operands a token of the allowed length can spell. -/

namespace Sys2Proof

/-- arg1 of every opcode but `NOP`: a register, or a literal in `[1, 2 ^ XLEN - 1]` (`42_validator.md` R94). -/
def Operand.validFirst (xlen : Nat) : Operand → Bool
  | .reg _ => true
  | .lit v => decide (1 ≤ v) && decide (v ≤ ((2 ^ xlen - 1 : Nat) : Int))

/-- arg2 of the seven two-operand opcodes: a register, or a literal in `[0, 2 ^ XLEN - 1]` (`42_validator.md` R95). -/
def Operand.validSecond (xlen : Nat) : Operand → Bool
  | .reg _ => true
  | .lit v => decide (0 ≤ v) && decide (v ≤ ((2 ^ xlen - 1 : Nat) : Int))

/-- The validator's operand checks on an instruction (`42_validator.md` R91, R94 to R97). -/
def Instr.wellFormed (xlen : Nat) : Instr → Bool
  | .nop => true
  | .set p q => p.validFirst xlen && q.validSecond xlen
  | .and p q => p.validFirst xlen && q.validSecond xlen
  | .or p q => p.validFirst xlen && q.validSecond xlen
  | .add p q => p.validFirst xlen && q.validSecond xlen
  | .sub p q => p.validFirst xlen && q.validSecond xlen
  | .shl p q => p.validFirst xlen && q.validSecond xlen
  | .shr p q => p.validFirst xlen && q.validSecond xlen
  | .jmp p => p.validFirst xlen
  | .prt p => p.validFirst xlen

/-- Whether the operand's shortest spelling has at most `tokenMax` characters (`41_decoder.md` R79): a register name has
four characters, a literal its decimal digits, and a negative literal one minus sign more. -/
def Operand.fits (tokenMax : Nat) : Operand → Bool
  | .reg _ => decide (4 ≤ tokenMax)
  | .lit (.ofNat n) => decide (1 ≤ tokenMax) && decide (n < 10 ^ tokenMax)
  | .lit (.negSucc n) => decide (2 ≤ tokenMax) && decide (n + 1 < 10 ^ (tokenMax - 1))

/-- Whether every field of the instruction's shortest line has at most `tokenMax` characters; the mnemonics have at most
three (`30_encoding.md` R49). -/
def Instr.fits (tokenMax : Nat) (i : Instr) : Bool :=
  decide (3 ≤ tokenMax) && i.operands.all (Operand.fits tokenMax)

end Sys2Proof
end

