-- ==== Sys2Proof/Decode.lean ====
section
/-! DEFINITION. The instruction decoder (`41_decoder.md`), the token readings it and the validator share (`30_encoding.md`
R49 to R52, `42_validator.md` R92), and the encoder written from the same tables. -/

namespace Sys2Proof

/-! ## Characters (`00_scope.md` R8, ASCII codes) -/

/-- The field separator, 0x20 (`30_encoding.md` R48). -/
def space : Byte := 0x20

/-- The comment marker `#`, 0x23 (`30_encoding.md` R46). -/
def commentMarker : Byte := 0x23

/-- The minus sign, 0x2D (`42_validator.md` R92). -/
def minus : Byte := 0x2D

/-- CR or LF (`41_decoder.md` R76; log 14). -/
def isTerminator (c : Byte) : Bool := c == 0x0A || c == 0x0D

/-- A decimal digit, 0x30 to 0x39 (`00_scope.md` R8). -/
def isDigit (c : Byte) : Bool := decide (0x30 ≤ c.toNat) && decide (c.toNat ≤ 0x39)

/-! ## The opcode map and the register names, one table each (`70_reset_and_hazards.md` R186 (d)) -/

/-- The bytes of the opcode field (`30_encoding.md` R49). -/
def mnemonic : Opcode → Token
  | .nop => [0x4E, 0x4F, 0x50]
  | .set => [0x53, 0x45, 0x54]
  | .and => [0x41, 0x4E, 0x44]
  | .or => [0x4F, 0x52]
  | .add => [0x41, 0x44, 0x44]
  | .sub => [0x53, 0x55, 0x42]
  | .shl => [0x53, 0x48, 0x4C]
  | .shr => [0x53, 0x48, 0x52]
  | .jmp => [0x4A, 0x4D, 0x50]
  | .prt => [0x50, 0x52, 0x54]

/-- The opcode a token names: whole-token bytewise equality (`30_encoding.md` R50, `42_validator.md` R90). -/
def opcodeOf (t : Token) : Option Opcode := Opcode.all.find? fun o => mnemonic o == t

/-- The bytes of a register name (`30_encoding.md` R51). -/
def regName : Reg → Token
  | .a => [0x52, 0x45, 0x47, 0x41]
  | .b => [0x52, 0x45, 0x47, 0x42]
  | .c => [0x52, 0x45, 0x47, 0x43]
  | .x => [0x52, 0x45, 0x47, 0x58]

/-- The register a token names, if any: `is_reg` and `reg_index` of `30_encoding.md` R51 in one (log 12). -/
def regOf (t : Token) : Option Reg := Reg.all.find? fun r => regName r == t

/-- `is_reg` of `30_encoding.md` R51. -/
def isReg (t : Token) : Bool := (regOf t).isSome

/-! ## Literals -/

/-- `digits` of `00_scope.md` R8: the longest run of digit characters at the start. -/
def digits (t : Token) : Token := t.takeWhile isDigit

/-- `nat` of `00_scope.md` R8: base 10, most significant digit first, 0 for the empty string. -/
def digitsValue (t : Token) : Nat := t.foldl (fun n c => 10 * n + (c.toNat - 0x30)) 0

/-- `litval` of `30_encoding.md` R52: the value of the leading digit run, an unbounded natural. -/
def litval (t : Token) : Nat := digitsValue (digits t)

/-- `sval` of `42_validator.md` R92: the validator's reading, which takes exactly one leading minus sign. -/
def sval : Token → Int
  | [] => 0
  | c :: cs => if c = minus then -((litval cs : Nat) : Int) else ((litval (c :: cs) : Nat) : Int)

/-- The operand a token is (`40_operand_resolver.md` R65). -/
def operandOf (t : Token) : Operand :=
  match regOf t with
  | some r => .reg r
  | none => .lit (sval t)

/-! ## The tokenizer (`41_decoder.md` R75 to R79) -/

/-- `strip_terminators` of `41_decoder.md` R76. -/
def stripTerminators : Line → Line
  | [] => []
  | c :: cs =>
    match stripTerminators cs with
    | [] => if isTerminator c then [] else [c]
    | d :: ds => c :: d :: ds

/-- The characters up to the first space, and what stands after that space if there is one. -/
def cutField : Line → Token × Option Line
  | [] => ([], none)
  | c :: cs => if c = space then ([], some cs) else (c :: (cutField cs).1, (cutField cs).2)

/-- The next field of what a field left over: empty, with nothing left, where the line has ended. -/
def nextField : Option Line → Token × Option Line
  | none => ([], none)
  | some s => cutField s

/-- `cut3` of `41_decoder.md` R78. -/
def cut3 (s : Line) : Decoded :=
  let f0 := cutField s
  let f1 := nextField f0.2
  let f2 := nextField f1.2
  { opcode := f0.1, arg1 := f1.1, arg2 := f2.1 }

/-- The length check of `41_decoder.md` R79, on all three fields. -/
def hasOverlongField (tokenMax : Nat) (d : Decoded) : Bool :=
  [d.opcode, d.arg1, d.arg2].any fun f => decide (tokenMax < f.length)

/-- `Decode` of `41_decoder.md` R75. -/
def decodeLine (tokenMax : Nat) (line : Line) : LineResult :=
  let s := stripTerminators line
  if s.head? = some commentMarker then .comment
  else if hasOverlongField tokenMax (cut3 s) then .decodeFault
  else .decoded (cut3 s)

/-! ## From a triple to an instruction -/

/-- The instruction of an opcode with the two operand tokens (`30_encoding.md` R49, `43_data_ops.md` R105). Tokens the opcode does
not use are dropped unread (`30_encoding.md` R58). -/
def instrWith (o : Opcode) (arg1 arg2 : Token) : Instr :=
  match o with
  | .nop => .nop
  | .set => .set (operandOf arg1) (operandOf arg2)
  | .and => .and (operandOf arg1) (operandOf arg2)
  | .or => .or (operandOf arg1) (operandOf arg2)
  | .add => .add (operandOf arg1) (operandOf arg2)
  | .sub => .sub (operandOf arg1) (operandOf arg2)
  | .shl => .shl (operandOf arg1) (operandOf arg2)
  | .shr => .shr (operandOf arg1) (operandOf arg2)
  | .jmp => .jmp (operandOf arg1)
  | .prt => .prt (operandOf arg1)

/-- The instruction of a decoded triple; none where the opcode token is none of the ten mnemonics. -/
def instrOf (d : Decoded) : Option Instr :=
  match opcodeOf d.opcode with
  | some o => some (instrWith o d.arg1 d.arg2)
  | none => none

/-- The whole decoder, total on any characters: tokenizer, then opcode and operand lookup. -/
def decode (tokenMax : Nat) (line : Line) : LineMeaning :=
  match decodeLine tokenMax line with
  | .comment => .comment
  | .decodeFault => .overlongField
  | .decoded d =>
    match instrOf d with
    | some i => .instr i
    | none => .unknownOpcode d.opcode

/-! ## The encoder -/

/-- The character of a decimal digit. -/
def digitChar (k : Nat) : Byte := BitVec.ofNat 8 (0x30 + k)

/-- The last `fuel` decimal digits of `n`, without leading zeros, put before `acc`. -/
def decimalAux : Nat → Nat → Token → Token
  | 0, _, acc => acc
  | fuel + 1, n, acc =>
    if n < 10 then digitChar n :: acc else decimalAux fuel (n / 10) (digitChar (n % 10) :: acc)

/-- `dec` of `44_jmp_prt.md` R129: the decimal numeral without sign, leading zeros or padding. A number has at most as many decimal as
binary digits, which is the fuel. -/
def decimal (n : Nat) : Token := decimalAux (n.log2 + 1) n []

/-- The shortest token that reads as the operand. -/
def spellOperand : Operand → Token
  | .reg r => regName r
  | .lit (.ofNat n) => decimal n
  | .lit (.negSucc n) => minus :: decimal (n + 1)

/-- The line of an instruction: the mnemonic, then each used operand after exactly one space (`30_encoding.md` R47). -/
def encode (i : Instr) : Line :=
  mnemonic i.opcode ++ i.operands.flatMap fun p => space :: spellOperand p

/-! ## The opcode table's words -/

/-- The `n` characters of a word of `n` bytes, the first character in the most significant byte, as `opcode_table.json` numbers
them (its `match_note`; log 9). -/
def charsOfWord : Nat → Nat → Line
  | 0, _ => []
  | n + 1, w => charsOfWord n (w / 256) ++ [BitVec.ofNat 8 w]

/-- The instruction the decoder reads from the line whose characters are the `nbits / 8` bytes of `w` (log 9). -/
def decodeTableWord (nbits w : Nat) : Option Instr :=
  match decode Config.default.tokenMax (charsOfWord (nbits / 8) w) with
  | .instr i => some i
  | .comment => none
  | .overlongField => none
  | .unknownOpcode _ => none

end Sys2Proof
end

