-- ==== Sys2Proof/Machine/State.lean ====
section
/-! DEFINITION. The state of the 150ASM core (`10_state.md` R23), its read-only inputs (R20), the reset values (R25), and the model's
own reasons to stop. -/

namespace Sys2Proof.Machine

/-- `STATE`, the engine state (`10_state.md` R17). -/
inductive EngineState where
  /-- Before the first instruction. -/
  | ready
  /-- The instruction pointer is within the program. -/
  | running
  /-- The instruction pointer reached or passed the program length. -/
  | haltedSuccess
  /-- A fault ended the run. -/
  | haltedError
deriving DecidableEq, Repr

/-- `FAULT`, the fault kind (`10_state.md` R18). -/
inductive FaultKind where
  /-- `None`: no fault. -/
  | none
  /-- `LoadFault` (`60_exceptions.md` R156). -/
  | loadFault
  /-- `DecodeFault` (`60_exceptions.md` R157). -/
  | decodeFault
  /-- `ValidationFault` (`60_exceptions.md` R158). -/
  | validationFault
  /-- `RunawayFault` (`60_exceptions.md` R159). -/
  | runawayFault
deriving DecidableEq, Repr

/-- One record of the output log (`44_jmp_prt.md` R128): a register name, or none for a blank one, and a value. -/
structure OutRecord where
  name : Option Reg
  value : Nat
deriving DecidableEq, Repr

/-- The read-only inputs of a run (`10_state.md` R20): the parameters, the program store and `load_ok`. `prog_len` is the length of
`prog`. The host's step takes a state alone, so the state carries them; no step writes them (log 2). -/
structure Inputs where
  cfg : Config
  /-- The program store: line `i` is the line at address `i` (`20_memory.md` R30; log 4). -/
  prog : List Line
  loadOk : Bool
deriving DecidableEq, Repr

/-- The inputs with no program placed: the default parameters, the empty program, and `load_ok` true as in every worked example
(DESIGN CHOICE, logs 1 and 2). -/
def Inputs.default : Inputs := { cfg := Config.default, prog := [], loadOk := true }

/-- The machine state: the tuple of `10_state.md` R23, beside the read-only inputs. -/
structure State where
  /-- What the environment handed over before the run; never written by a step. -/
  inputs : Inputs
  /-- `REGA` = `x[0]`. -/
  rega : Nat
  /-- `REGB` = `x[1]`. -/
  regb : Nat
  /-- `REGC` = `x[2]`. -/
  regc : Nat
  /-- `REGX` = `x[3]`, the flag register. -/
  regx : Nat
  /-- The instruction pointer, a line index. -/
  pc : Nat
  /-- `COUNT`, the execution counter. -/
  count : Nat
  /-- `STATE`, the engine state. -/
  status : EngineState
  /-- `FAULT`, the fault kind. -/
  fault : FaultKind
  /-- `OUT`, the output log, oldest record first. -/
  out : List OutRecord
deriving DecidableEq, Repr

/-- What the host may observe of a run that is over (`45_engine.md` R145): the registers only after a success. -/
structure RunResult where
  status : EngineState
  fault : FaultKind
  out : List OutRecord
  /-- `REGA`, `REGB`, `REGC`, `REGX`, `pc`; none after a fault (log 22). -/
  registers : Option (List Nat)
deriving DecidableEq, Repr

/-- The model's own reason to stop. The four faults of the spec are not here: taking one is a next state (`60_exceptions.md` R161; log 6). -/
inductive Fault where
  /-- Raised by the step alone: in `Running`, a fetch at an index that holds no line. `Fetch` is defined only below `prog_len`
  (`20_memory.md` R33), and a state that satisfies `10_state.md` R26 (b) never comes here. Safe: the model stops where the spec
  says nothing (log 4). -/
  | fetchOutsideProgram
deriving DecidableEq, Repr

/-- The reasons the model refuses an instruction. -/
inductive Refusal where
  /-- Raised by an arm of `exec` for an instruction that has no meaning yet; no arm does. Safe. -/
  | notModelled (mnemonic : String)
deriving DecidableEq, Repr

/-- The machine right after reset with the given inputs: every cell at the value of `10_state.md` R25. -/
def State.powerOn (inp : Inputs) : State :=
  { inputs := inp
    rega := 0
    regb := 0
    regc := 0
    regx := 0
    pc := 0
    count := 0
    status := .ready
    fault := .none
    out := [] }

/-- The machine right after reset with nothing placed (`10_state.md` R25, `70_reset_and_hazards.md` R180). -/
def State.reset : State := State.powerOn Inputs.default

end Sys2Proof.Machine
end

