-- ==== Sys2Proof/Machine/Ops.lean ====
section
/-! DEFINITION. The named operations over the cells of the machine and over the program store, and the one operation that takes a
fault (`60_exceptions.md` R161). -/

namespace Sys2Proof.Machine

/-! ## Parameters and inputs -/

/-- `XLEN` of the running machine. -/
def State.xlen (s : State) : Nat := s.inputs.cfg.xlen

/-- `prog_len` (`20_memory.md` R30). -/
def State.progLen (s : State) : Nat := s.inputs.prog.length

/-! ## The register bank (`10_state.md` R10 to R12) -/

/-- `x[i]`: the latest value written to a named register (`10_state.md` R27). -/
def State.readReg (s : State) : Reg → Nat
  | .a => s.rega
  | .b => s.regb
  | .c => s.regc
  | .x => s.regx

/-- `x[i] <- v`. No register is hard-wired or ignores writes (`10_state.md` R11). -/
def State.writeReg (s : State) (r : Reg) (v : Nat) : State :=
  match r with
  | .a => { s with rega := v }
  | .b => { s with regb := v }
  | .c => { s with regc := v }
  | .x => { s with regx := v }

/-! ## The instruction pointer (`10_state.md` R13) -/

/-- `pc <- target`. -/
def State.setPc (s : State) (target : Nat) : State := { s with pc := target }

/-- `pc <- pc + 1`. The increment never wraps (`10_state.md` R13): it is made below `prog_len` only. -/
def State.advancePc (s : State) : State := s.setPc (s.pc + 1)

/-! ## The status cells (`10_state.md` R16 to R19) -/

/-- `OUT <- OUT ++ [record]` (`44_jmp_prt.md` R128). -/
def State.emit (s : State) (r : OutRecord) : State := { s with out := s.out ++ [r] }

/-- `COUNT <- COUNT + 1` (`45_engine.md` R141). -/
def State.countStep (s : State) : State := { s with count := s.count + 1 }

/-- `STATE <- e`. -/
def State.setStatus (s : State) (e : EngineState) : State := { s with status := e }

/-- `raise F` (`60_exceptions.md` R161): the only writes are `FAULT` and `STATE`; nothing is saved and control goes nowhere. There is
no return from it (R163). -/
def State.raise (s : State) (f : FaultKind) : State := { s with fault := f, status := .haltedError }

/-! ## The program store (`20_memory.md`) -/

/-- `Fetch(i)`, also `MemRead(i, 1)`: the whole line at index `i`, defined only for `i < prog_len` (`20_memory.md` R33). -/
def State.fetch (s : State) (i : Nat) : Option Line := s.inputs.prog[i]?

/-- What the core may assume of the program store (`20_memory.md` R32): at most `PROG_MAX` lines, each of at most `LINE_MAX` characters. -/
def Memory.wf (inp : Inputs) : Bool :=
  decide (inp.prog.length ≤ inp.cfg.progMax) && inp.prog.all fun l => decide (l.length ≤ inp.cfg.lineMax)

/-- The program with the line at index `i` replaced by `l`, filled up with empty lines where it was too short. The host's own move
before a run (`60_exceptions.md` R169); no instruction does this. -/
def placeLine : List Line → Nat → Line → List Line
  | [], 0, l => [l]
  | _ :: ps, 0, l => l :: ps
  | [], i + 1, l => [] :: placeLine [] i l
  | p :: ps, i + 1, l => p :: placeLine ps i l

/-! ## Reset (`70_reset_and_hazards.md` R180) -/

/-- Reset of a machine in any state: every cell at its reset value; the environment's inputs are not cells and stay. -/
def State.applyReset (s : State) : State := State.powerOn s.inputs

end Sys2Proof.Machine
end

