-- ==== Sys2Proof/Machine/Flags.lean ====
section
/-! DEFINITION. The one condition of the machine. There are no condition codes: no instruction writes a flag as a side effect
(`10_state.md` R12), so nothing is computed here but the jump's test. -/

namespace Sys2Proof.Machine

/-- The jump condition (`44_jmp_prt.md` R126): the whole flag register `REGX` is zero. -/
def flagIsZero (s : State) : Bool := s.readReg .x == 0

end Sys2Proof.Machine
end

