-- ==== Sys2Proof/Machine/Operands.lean ====
section
/-! DEFINITION. The operand resolver (`40_operand_resolver.md`) and the shared frame of the seven data instructions
(`43_data_ops.md` R105). -/

namespace Sys2Proof.Machine

/-- `resolve` of `40_operand_resolver.md` R66: the register's current value, or the literal's value modulo `2 ^ XLEN`. The resolver
reads no sign: a literal whose signed reading is negative has `litval` 0 (`30_encoding.md` R52), which `Int.toNat` gives. -/
def resolve (s : State) : Operand → Nat
  | .reg r => s.readReg r
  | .lit v => v.toNat % 2 ^ s.xlen

/-- The destination lookup `dest` (`40_operand_resolver.md` R71): a literal designates no cell. -/
def destOf : Operand → Option Reg
  | .reg r => some r
  | .lit _ => none

/-- The read-modify-write frame of `43_data_ops.md` R105: the source is resolved and the old destination read before the write; a
literal destination writes nothing; `pc` advances by one in every case. -/
def dataOp (f : Nat → Nat → Nat) (dst src : Operand) (s : State) : State :=
  let v := resolve s src
  match destOf dst with
  | some d => (s.writeReg d (f (s.readReg d) v)).advancePc
  | none => s.advancePc

end Sys2Proof.Machine
end

