-- ==== Sys2Proof/Machine/Control.lean ====
section
/-! DEFINITION. The meaning of `JMP`, the one control transfer (`44_jmp_prt.md` R125, R126). -/

namespace Sys2Proof.Machine

/-- `JMP` (`44_jmp_prt.md` R126): to the resolved target when the flag register is zero, else to the next line. The target is not checked
against `prog_len`; a far target ends the run when the engine completes the step (`45_engine.md` R140; log 16). -/
def execJmp (target : Operand) (s : State) : Host.Outcome State Fault Refusal :=
  .next (if flagIsZero s then s.setPc (resolve s target) else s.advancePc)

end Sys2Proof.Machine
end

