-- ==== Sys2Proof/Machine/Alu.lean ====
section
/-! DEFINITION. What the seven data instructions compute from the old destination value and the resolved source (`43_data_ops.md`
R107 to R114). All arithmetic is on unsigned numbers, exact, then reduced modulo `2 ^ XLEN`. -/

namespace Sys2Proof.Machine

/-- `SET` (`43_data_ops.md` R107): the source value; the old destination value is not used. -/
def aluSet (_old v : Nat) : Nat := v

/-- `AND` (`43_data_ops.md` R108). -/
def aluAnd (old v : Nat) : Nat := old &&& v

/-- `OR` (`43_data_ops.md` R109). -/
def aluOr (old v : Nat) : Nat := old ||| v

/-- `ADD` (`43_data_ops.md` R110). -/
def aluAdd (xlen : Nat) (old v : Nat) : Nat := (old + v) % 2 ^ xlen

/-- `SUB` (`43_data_ops.md` R111): destination minus source, the remainder taken non-negative. -/
def aluSub (xlen : Nat) (old v : Nat) : Nat := (((old : Int) - (v : Int)) % ((2 ^ xlen : Nat) : Int)).toNat

/-- `SHL` (`43_data_ops.md` R112): `(old * 2 ^ n) mod 2 ^ XLEN` for every amount. An amount of `XLEN` or more gives 0, which is what
the formula yields; the case is split so that a large amount needs no large power (log 11). -/
def aluShl (xlen : Nat) (old n : Nat) : Nat := if n < xlen then old * 2 ^ n % 2 ^ xlen else 0

/-- `SHR` (`43_data_ops.md` R113): `floor (old / 2 ^ n)`, a logical shift (log 11). -/
def aluShr (old n : Nat) : Nat := old >>> n

end Sys2Proof.Machine
end

