-- ==== Sys2Proof/Machine/DataOps.lean ====
section
/-! DEFINITION. The meanings of `NOP` and of the seven data instructions (`43_data_ops.md`). No handler fails (R105; log 20). -/

namespace Sys2Proof.Machine

/-- `NOP` (`43_data_ops.md` R106). -/
def execNop (s : State) : Host.Outcome State Fault Refusal := .next s.advancePc

/-- `SET` (`43_data_ops.md` R107). -/
def execSet (dst src : Operand) (s : State) : Host.Outcome State Fault Refusal := .next (dataOp aluSet dst src s)

/-- `AND` (`43_data_ops.md` R108). -/
def execAnd (dst src : Operand) (s : State) : Host.Outcome State Fault Refusal := .next (dataOp aluAnd dst src s)

/-- `OR` (`43_data_ops.md` R109). -/
def execOr (dst src : Operand) (s : State) : Host.Outcome State Fault Refusal := .next (dataOp aluOr dst src s)

/-- `ADD` (`43_data_ops.md` R110). -/
def execAdd (dst src : Operand) (s : State) : Host.Outcome State Fault Refusal := .next (dataOp (aluAdd s.xlen) dst src s)

/-- `SUB` (`43_data_ops.md` R111). -/
def execSub (dst src : Operand) (s : State) : Host.Outcome State Fault Refusal := .next (dataOp (aluSub s.xlen) dst src s)

/-- `SHL` (`43_data_ops.md` R112). -/
def execShl (dst amount : Operand) (s : State) : Host.Outcome State Fault Refusal :=
  .next (dataOp (aluShl s.xlen) dst amount s)

/-- `SHR` (`43_data_ops.md` R113). -/
def execShr (dst amount : Operand) (s : State) : Host.Outcome State Fault Refusal := .next (dataOp aluShr dst amount s)

end Sys2Proof.Machine
end

