-- ==== Sys2Proof/Machine/Output.lean ====
section
/-! DEFINITION. The meaning of `PRT` (`44_jmp_prt.md` R128) and the text form of the output log (R129). -/

namespace Sys2Proof.Machine

/-- The record `PRT` appends (`44_jmp_prt.md` R128): named for a register operand, blank for a literal. -/
def recordOf (s : State) (what : Operand) : OutRecord := { name := destOf what, value := resolve s what }

/-- `PRT` (`44_jmp_prt.md` R128). -/
def execPrt (what : Operand) (s : State) : Host.Outcome State Fault Refusal := .next (s.emit (recordOf s what)).advancePc

/-- `render` of `44_jmp_prt.md` R129: name, space, `=`, space, numeral; two spaces, `=`, space, numeral where the name is blank (log 19). -/
def render (r : OutRecord) : Line :=
  match r.name with
  | some n => regName n ++ [0x20, 0x3D, 0x20] ++ decimal r.value
  | none => [0x20, 0x20, 0x3D, 0x20] ++ decimal r.value

/-- The text of an output log: each rendered record followed by one LF (`44_jmp_prt.md` R129; log 19). -/
def renderLog (out : List OutRecord) : Line := out.flatMap fun r => render r ++ [0x0A]

end Sys2Proof.Machine
end

