-- ==== Sys2Proof/Machine/Dispatch.lean ====
section
/-! DEFINITION. The opcode dispatch multiplexer (`43_data_ops.md` R105): one arm per instruction. -/

namespace Sys2Proof.Machine

def exec (i : Instr) (s : State) : Host.Outcome State Fault Refusal :=
  match i with
  | .nop => Sys2Proof.Machine.execNop s
  | .set dst src => Sys2Proof.Machine.execSet dst src s
  | .and dst src => Sys2Proof.Machine.execAnd dst src s
  | .or dst src => Sys2Proof.Machine.execOr dst src s
  | .add dst src => Sys2Proof.Machine.execAdd dst src s
  | .sub dst src => Sys2Proof.Machine.execSub dst src s
  | .shl dst amount => Sys2Proof.Machine.execShl dst amount s
  | .shr dst amount => Sys2Proof.Machine.execShr dst amount s
  | .jmp target => Sys2Proof.Machine.execJmp target s
  | .prt what => Sys2Proof.Machine.execPrt what s

end Sys2Proof.Machine
end

