-- ==== Sys2Proof/Machine/Validator.lean ====
section
/-! DEFINITION. The instruction validator on decoded triples (`42_validator.md`). It reads no register and no cell (R98). -/

namespace Sys2Proof.Machine

/-- `valid1` of `42_validator.md` R94. -/
def valid1 (xlen : Nat) (t : Token) : Bool :=
  isReg t || (decide (1 ≤ sval t) && decide (sval t ≤ ((2 ^ xlen - 1 : Nat) : Int)))

/-- `valid2` of `42_validator.md` R95. -/
def valid2 (xlen : Nat) (t : Token) : Bool :=
  isReg t || (decide (0 ≤ sval t) && decide (sval t ≤ ((2 ^ xlen - 1 : Nat) : Int)))

/-- `Validate` of `42_validator.md` R91, test by test in its order. -/
def validate (xlen : Nat) (d : Decoded) : Bool :=
  match opcodeOf d.opcode with
  | none => false
  | some o =>
    if o = .nop then true
    else if !valid1 xlen d.arg1 then false
    else if o = .jmp ∨ o = .prt then true
    else valid2 xlen d.arg2

end Sys2Proof.Machine
end

