-- ==== Sys2Proof/Machine/Engine.lean ====
section
/-! DEFINITION. The execution engine (`45_engine.md`): Start, the parts of a step around dispatch, and the codes the host reads. -/

namespace Sys2Proof.Machine

/-- The start transition (`45_engine.md` R136), taken from `Ready`. -/
def start (s : State) : State :=
  if !s.inputs.loadOk then s.raise .loadFault
  else if s.progLen ≤ s.pc then s.setStatus .haltedSuccess
  else s.setStatus .running

/-- The end of a step that raised neither `DecodeFault` nor `ValidationFault` (`45_engine.md` R137, R140, R141): count it, compare with the
ceiling, and only then test for termination. The step's own effects are kept when the ceiling is passed (log 17). -/
def completeStep (s : State) : State :=
  let t := s.countStep
  if t.inputs.cfg.ceiling < t.count then t.raise .runawayFault
  else if t.progLen ≤ t.pc then t.setStatus .haltedSuccess
  else t

/-- The engine's part after dispatch: complete the step of a handler that answered a next state. -/
def afterDispatch : Host.Outcome State Fault Refusal → Host.Outcome State Fault Refusal
  | .next t => .next (completeStep t)
  | .fault f => .fault f
  | .refused r => .refused r

/-- A decoded triple: validate it, then dispatch (`45_engine.md` R137). A triple that fails validation changes no other cell (R139). -/
def runDecoded (d : Decoded) (s : State) : Host.Outcome State Fault Refusal :=
  if validate s.xlen d then
    match instrOf d with
    | some i => afterDispatch (exec i s)
    | none => .next (s.raise .validationFault)
  else .next (s.raise .validationFault)

/-- One fetched line (`45_engine.md` R137): decode it, then skip, fault or run. -/
def runLine (line : Line) (s : State) : Host.Outcome State Fault Refusal :=
  match decodeLine s.inputs.cfg.tokenMax line with
  | .decodeFault => .next (s.raise .decodeFault)
  | .comment => .next (completeStep s.advancePc)
  | .decoded d => runDecoded d s

/-- The step taken in state `Running` (`45_engine.md` R137): fetch the line at `pc` and run it. -/
def runStep (s : State) : Host.Outcome State Fault Refusal :=
  match s.fetch s.pc with
  | some line => runLine line s
  | none => .fault .fetchOutsideProgram

/-! ## What the host reads (`45_engine.md` R145, R146) -/

/-- The numeric encoding of `STATE` (`10_state.md` R17; log 18). -/
def EngineState.code : EngineState → Nat
  | .ready => 0
  | .running => 1
  | .haltedSuccess => 2
  | .haltedError => 3

/-- The numeric encoding of `FAULT` (`10_state.md` R18, `60_exceptions.md` R160; log 18). -/
def FaultKind.code : FaultKind → Nat
  | .none => 0
  | .loadFault => 1
  | .decodeFault => 2
  | .validationFault => 3
  | .runawayFault => 4

/-- The result of a run (`45_engine.md` R145): none while it is not over. -/
def runResult (s : State) : Option RunResult :=
  match s.status with
  | .ready => none
  | .running => none
  | .haltedSuccess =>
    some { status := s.status, fault := s.fault, out := s.out, registers := some [s.rega, s.regb, s.regc, s.regx, s.pc] }
  | .haltedError => some { status := s.status, fault := s.fault, out := s.out, registers := none }

/-- The exit status of a run that is over (`45_engine.md` R146; log 18). -/
def exitStatus (s : State) : Option Nat :=
  match s.status with
  | .ready => none
  | .running => none
  | .haltedSuccess => some 0
  | .haltedError => some 1

end Sys2Proof.Machine
end

