-- ==== Sys2Proof/Machine/Step.lean ====
section
/-! DEFINITION. One step of the machine (`45_engine.md` R135, R142), and the host's way to place an instruction before it. -/

namespace Sys2Proof.Machine

/-- One move of the engine. In `Ready` it is Start (R136), in `Running` one step (R137); in a halted state the engine does nothing and every
cell keeps its value until reset (R142; log 6). -/
def step (s : State) : Host.Outcome State Fault Refusal :=
  match s.status with
  | .ready => .next (start s)
  | .running => runStep s
  | .haltedSuccess => .next s
  | .haltedError => .next s

/-- `s` with the line whose characters are the `nbits / 8` bytes of `w` placed at the line index `pc`, and the engine in `Running`, so that the
very next step fetches and runs that line. It stands for the host's load before the run and for the Start it would take (log 5). -/
def State.withFetchWord (s : State) (nbits w : Nat) : State :=
  { s with
    inputs := { s.inputs with prog := placeLine s.inputs.prog s.pc (charsOfWord (nbits / 8) w) }
    status := .running }

end Sys2Proof.Machine
end

