-- ==== Sys2Proof/Safety.lean ====
section
/-! DEFINITION. What a good state and a safe run are, in the terms the statements use: the invariant of `10_state.md` R26 and the
frame of an instruction. -/

namespace Sys2Proof.Machine

/-- What the environment guarantees of the inputs: parameters that satisfy `00_scope.md` R7 and, when it says the load succeeded, a
program within `PROG_MAX` and `LINE_MAX` (`20_memory.md` R32, `60_exceptions.md` R156). -/
def Inputs.valid (inp : Inputs) : Bool := inp.cfg.valid && (!inp.loadOk || Memory.wf inp)

/-- The run is over (`45_engine.md` R145). -/
def State.halted (s : State) : Bool := s.status == .haltedSuccess || s.status == .haltedError

/-- The invariant of `10_state.md` R26 (a) to (f), with what the environment guarantees (`70_reset_and_hazards.md` R183). -/
structure GoodState (s : State) : Prop where
  inputsValid : s.inputs.valid = true
  /-- A run gets past `Ready` without a fault only when the load succeeded (`45_engine.md` R136). -/
  loadedWhenStarted : s.status = .running ∨ s.status = .haltedSuccess → s.inputs.loadOk = true
  /-- (a) for the four named registers. -/
  regsInRange : ∀ r, s.readReg r < 2 ^ s.xlen
  /-- (a) for the instruction pointer. -/
  pcInRange : s.pc < 2 ^ s.xlen
  /-- (b). -/
  runningInside : s.status = .running → s.pc < s.progLen
  /-- (c). -/
  successOutside : s.status = .haltedSuccess → s.progLen ≤ s.pc ∧ s.count ≤ s.inputs.cfg.ceiling
  /-- (d), first part. -/
  countWithin : s.status = .ready ∨ s.status = .running → s.count ≤ s.inputs.cfg.ceiling
  /-- (d), second part. -/
  countLimit : s.count ≤ s.inputs.cfg.ceiling + 1
  /-- (d), third part. -/
  countPast : s.count = s.inputs.cfg.ceiling + 1 → s.status = .haltedError ∧ s.fault = .runawayFault
  /-- (e). -/
  faultIffError : s.fault ≠ .none ↔ s.status = .haltedError
  /-- (f). -/
  outBounded : s.out.length ≤ s.count

/-- The cells no instruction writes (`10_state.md` R14, R24): the inputs with every line of the program store, `COUNT`, `STATE` and
`FAULT`. -/
def SameEngineCells (s t : State) : Prop :=
  t.inputs = s.inputs ∧ (∀ i, t.fetch i = s.fetch i) ∧ t.count = s.count ∧ t.status = s.status ∧ t.fault = s.fault

/-- The four named registers are unchanged. -/
def SameRegs (s t : State) : Prop := ∀ r, t.readReg r = s.readReg r

/-- The whole effect of a data instruction that computes `f` (`43_data_ops.md` R105): a named destination holds `f` of its old value and
the resolved source, every other register is unchanged, a literal destination changes no register, `pc` advances by one, and
every other cell is unchanged. -/
def DataEffect (f : Nat → Nat → Nat) (dst src : Operand) (s t : State) : Prop :=
  (∀ d, dst = .reg d → t.readReg d = f (s.readReg d) (resolve s src) ∧ ∀ r, r ≠ d → t.readReg r = s.readReg r) ∧
  (∀ v, dst = .lit v → SameRegs s t) ∧
  t.pc = s.pc + 1 ∧ t.out = s.out ∧ SameEngineCells s t

/-- The line at `pc` takes effect and leads to `u`, before the step is counted (`45_engine.md` R137): a comment advances `pc`, an
instruction that validates is dispatched. -/
def CompletesWith (s u : State) : Prop :=
  ∃ line, s.fetch s.pc = some line ∧
    ((decodeLine s.inputs.cfg.tokenMax line = .comment ∧ u = s.advancePc) ∨
      ∃ d i, decodeLine s.inputs.cfg.tokenMax line = .decoded d ∧ validate s.xlen d = true ∧ instrOf d = some i ∧ exec i s = .next u)

/-- The register an instruction names as its destination, if any (`10_state.md` R14). -/
def destinationOf : Instr → Option Reg
  | .nop => none
  | .set dst _ => destOf dst
  | .and dst _ => destOf dst
  | .or dst _ => destOf dst
  | .add dst _ => destOf dst
  | .sub dst _ => destOf dst
  | .shl dst _ => destOf dst
  | .shr dst _ => destOf dst
  | .jmp _ => none
  | .prt _ => none

end Sys2Proof.Machine
end

