-- ==== Sys2Proof/Certificates/Slice0/Obligations.lean ====
section
/-! DEFINITION. The statements for the provers. Each docstring names the rule of `spec/` it formalises; where a clause rests on a decision of the
spec's own (a D or C entry) or on a choice of the model (a log entry), the docstring says so. -/

open Sys2Proof Sys2Proof.Machine

/-! ## Encoding: decoder, encoder, literals -/

/-- Decode and encode agree for every instruction whose fields fit the token bound, with every operand at every value
(`30_encoding.md` sections 1 and 2, `41_decoder.md` section 1). -/
def Obligations.DecodeOfEncodeIsTheInstruction : Prop :=
  ∀ (tokenMax : Nat) (i : Instr), i.fits tokenMax = true → decode tokenMax (encode i) = .instr i

/-- Every instruction that passes the operand checks has a line within the token bound, once the bound holds a register name and every
number of the machine's width (`00_scope.md` section 4, the recommendation after the constraints). -/
def Obligations.WellFormedInstructionsHaveALine : Prop :=
  ∀ (xlen tokenMax : Nat) (i : Instr), 4 ≤ tokenMax → 2 ^ xlen ≤ 10 ^ tokenMax → i.wellFormed xlen = true → i.fits tokenMax = true

/-- Words written out byte by byte from the opcode map and the register names decode to the instructions they stand for
(`30_encoding.md` sections 1 and 2). -/
def Obligations.WrittenOutWordsDecode : Prop :=
  decode 16 [0x4E, 0x4F, 0x50] = .instr .nop ∧
  decode 16 [0x53, 0x45, 0x54, 0x20, 0x52, 0x45, 0x47, 0x41, 0x20, 0x35] = .instr (.set (.reg .a) (.lit 5)) ∧
  decode 16 [0x53, 0x48, 0x52, 0x20, 0x52, 0x45, 0x47, 0x58, 0x20, 0x52, 0x45, 0x47, 0x41] = .instr (.shr (.reg .x) (.reg .a)) ∧
  decode 16 [0x4A, 0x4D, 0x50, 0x20, 0x31] = .instr (.jmp (.lit 1)) ∧
  decode 16 [0x50, 0x52, 0x54, 0x20, 0x52, 0x45, 0x47, 0x42] = .instr (.prt (.reg .b))

/-- Line terminators at the end of a line do not change what it decodes to. That CR and LF are the terminators is decision D10 of
`92_eei_decisions.md` (log 14). -/
def Obligations.TrailingTerminatorsAreIgnored : Prop :=
  ∀ (tokenMax : Nat) (line ends : Line), (∀ c ∈ ends, c = 0x0A ∨ c = 0x0D) → decode tokenMax (line ++ ends) = decode tokenMax line

/-- No field of a decoded triple holds a space or is longer than the bound (`41_decoder.md` section 2). -/
def Obligations.DecodedFieldsAreBoundedAndSpaceless : Prop :=
  ∀ (tokenMax : Nat) (line : Line) (d : Decoded), decodeLine tokenMax line = .decoded d →
    ∀ f ∈ [d.opcode, d.arg1, d.arg2], space ∉ f ∧ f.length ≤ tokenMax

/-- With a token bound at least the line bound, no line of an allowed length is a decode fault (`41_decoder.md` section 2; the spec derives
it). -/
def Obligations.WideTokenBoundNeverFaults : Prop :=
  ∀ (tokenMax lineMax : Nat) (line : Line), lineMax ≤ tokenMax → line.length ≤ lineMax → decodeLine tokenMax line ≠ .decodeFault

/-- The content the machine never looks at (`30_encoding.md` R58): (a) what follows the third space, (b) the operands of `NOP`, (c) arg2 of `JMP` and
`PRT`, (d) what follows the comment marker. The length of the first three fields is bounded in every case. -/
def Obligations.IgnoredContentIsNeverLookedAt : Prop :=
  (∀ (tokenMax : Nat) (f0 f1 f2 : Token) (tail : Line), space ∉ f0 → space ∉ f1 → space ∉ f2 →
    decodeLine tokenMax (f0 ++ space :: (f1 ++ space :: (f2 ++ space :: tail))) =
      if f0.head? = some commentMarker then .comment
      else if tokenMax < f0.length ∨ tokenMax < f1.length ∨ tokenMax < f2.length then .decodeFault
      else .decoded ⟨f0, f1, f2⟩) ∧
  (∀ (a1 a2 : Token) (s : State), runDecoded ⟨mnemonic .nop, a1, a2⟩ s = runDecoded ⟨mnemonic .nop, [], []⟩ s) ∧
  (∀ (a1 a2 : Token) (s : State), runDecoded ⟨mnemonic .jmp, a1, a2⟩ s = runDecoded ⟨mnemonic .jmp, a1, []⟩ s) ∧
  (∀ (a1 a2 : Token) (s : State), runDecoded ⟨mnemonic .prt, a1, a2⟩ s = runDecoded ⟨mnemonic .prt, a1, []⟩ s) ∧
  (∀ (tokenMax : Nat) (rest : Line), decodeLine tokenMax (commentMarker :: rest) = .comment)

/-- The numeral of a number, followed by anything that does not begin with a digit, reads back as that number. That trailing
characters are ignored is decision D6 of `92_eei_decisions.md` (log 13). -/
def Obligations.DecimalNumeralReadsBack : Prop :=
  ∀ (n : Nat) (rest : Token), (∀ c, rest.head? = some c → isDigit c = false) → litval (decimal n ++ rest) = n

/-- Resolution of a token (`40_operand_resolver.md` R66): the named register's current value, else the literal's value modulo `2 ^ XLEN`; a token that
starts with no digit reads as zero. -/
def Obligations.ResolveReadsRegisterOrLiteral : Prop :=
  (∀ (s : State) (r : Reg), resolve s (operandOf (regName r)) = s.readReg r) ∧
  (∀ (s : State) (t : Token), (∀ r, t ≠ regName r) → resolve s (operandOf t) = litval t % 2 ^ s.xlen) ∧
  (∀ (s : State) (t : Token), (∀ r, t ≠ regName r) → (∀ c, t.head? = some c → isDigit c = false) → resolve s (operandOf t) = 0)

/-! ## Validator -/

/-- The validator passes exactly the triples that stand for a well-formed instruction (`42_validator.md` section 1; the upper bound of literals is
decision D8 of `92_eei_decisions.md`, log 13). -/
def Obligations.ValidatorPassesExactlyWellFormed : Prop :=
  ∀ (xlen : Nat) (d : Decoded), validate xlen d = true ↔ ∃ i, instrOf d = some i ∧ i.wellFormed xlen = true

/-- `NOP` passes with any operands (`42_validator.md` R96). -/
def Obligations.NopAlwaysValidates : Prop := ∀ (xlen : Nat) (a1 a2 : Token), validate xlen ⟨mnemonic .nop, a1, a2⟩ = true

/-- `JMP` and `PRT` require only arg1 (`42_validator.md` R97). -/
def Obligations.JmpAndPrtCheckOnlyTheFirstOperand : Prop :=
  ∀ (xlen : Nat) (a1 a2 : Token),
    validate xlen ⟨mnemonic .jmp, a1, a2⟩ = valid1 xlen a1 ∧ validate xlen ⟨mnemonic .prt, a1, a2⟩ = valid1 xlen a1

/-- A literal that has passed the validator is resolved to its own value: nothing is reduced and no sign is lost (`40_operand_resolver.md` section 1; it
rests on decision D8 of `92_eei_decisions.md`, log 13). -/
def Obligations.ValidatedLiteralsResolveToThemselves : Prop :=
  ∀ (s : State) (d : Decoded) (i : Instr) (v : Int), validate s.xlen d = true → instrOf d = some i → .lit v ∈ i.operands →
    (resolve s (.lit v) : Int) = v

/-- The illegal encodings are exactly those of the table (`30_encoding.md` R55): a line that is no comment raises `DecodeFault` exactly when one of its
fields is too long, else `ValidationFault` exactly when the opcode is none of the ten, or arg1 of an opcode other than `NOP`, or arg2
of one of the seven two-operand opcodes, is not what the table accepts; every other line takes effect. -/
def Obligations.IllegalLinesAreExactlyTheTable : Prop :=
  ∀ (s : State) (line : Line) (d : Decoded),
    s.status = .running → s.fault = .none → s.fetch s.pc = some line →
    (stripTerminators line).head? ≠ some commentMarker → d = cut3 (stripTerminators line) →
    let tooLong := s.inputs.cfg.tokenMax < d.opcode.length ∨ s.inputs.cfg.tokenMax < d.arg1.length ∨
      s.inputs.cfg.tokenMax < d.arg2.length
    let badOperand := fun (t : Token) (low : Int) => (∀ r, t ≠ regName r) ∧ ¬ (low ≤ sval t ∧ sval t < ((2 ^ s.xlen : Nat) : Int))
    let illegal := (∀ o, d.opcode ≠ mnemonic o) ∨
      (d.opcode ≠ mnemonic .nop ∧ badOperand d.arg1 1) ∨
      (d.opcode ∈ [Opcode.set, .and, .or, .add, .sub, .shl, .shr].map mnemonic ∧ badOperand d.arg2 0)
    ∃ t, step s = .next t ∧
      (t.fault = .decodeFault ↔ tooLong) ∧
      (t.fault = .validationFault ↔ ¬ tooLong ∧ illegal) ∧
      (¬ tooLong ∧ ¬ illegal → ∃ i u, instrOf d = some i ∧ exec i s = .next u ∧ t = completeStep u)

/-! ## The instructions: encoding, effect, frame, completion -/

/-- `NOP` (`43_data_ops.md` R106): no state change but `pc + 1`, whatever tokens stand after it; its step adds 1 to `COUNT`, and as step number `CEILING + 1` it
ends in `RunawayFault`; a field longer than `TOKEN_MAX` on the line is a `DecodeFault` before that. -/
def Obligations.NopOnlyAdvances : Prop :=
  (∀ a1 a2, instrOf ⟨[0x4E, 0x4F, 0x50], a1, a2⟩ = some .nop) ∧
  (∀ s : State, ∃ t, exec .nop s = .next t ∧ t.pc = s.pc + 1 ∧ SameRegs s t ∧ t.out = s.out ∧ SameEngineCells s t) ∧
  (∀ (s : State) (line : Line), s.status = .running → s.fetch s.pc = some line →
    decode s.inputs.cfg.tokenMax line = .instr .nop →
    ∃ t, step s = .next t ∧ t.count = s.count + 1 ∧ (s.count = s.inputs.cfg.ceiling → t.fault = .runawayFault)) ∧
  (∀ (s : State) (line : Line), s.status = .running → s.fetch s.pc = some line →
    (cut3 (stripTerminators line)).opcode = mnemonic .nop → hasOverlongField s.inputs.cfg.tokenMax (cut3 (stripTerminators line)) = true →
    ∃ t, step s = .next t ∧ t.fault = .decodeFault)

/-- `SET` (`43_data_ops.md` R107). -/
def Obligations.SetCopiesTheSource : Prop :=
  (∀ a1 a2, instrOf ⟨[0x53, 0x45, 0x54], a1, a2⟩ = some (.set (operandOf a1) (operandOf a2))) ∧
  (∀ (dst src : Operand) (s : State), ∃ t, exec (.set dst src) s = .next t ∧ DataEffect (fun _ v => v) dst src s t)

/-- `AND` (`43_data_ops.md` R108): bit by bit. -/
def Obligations.AndIsBitwise : Prop :=
  (∀ a1 a2, instrOf ⟨[0x41, 0x4E, 0x44], a1, a2⟩ = some (.and (operandOf a1) (operandOf a2))) ∧
  (∀ (dst src : Operand) (s : State), ∃ t, exec (.and dst src) s = .next t ∧ DataEffect (fun x v => x &&& v) dst src s t)

/-- `OR` (`43_data_ops.md` R109): bit by bit. -/
def Obligations.OrIsBitwise : Prop :=
  (∀ a1 a2, instrOf ⟨[0x4F, 0x52], a1, a2⟩ = some (.or (operandOf a1) (operandOf a2))) ∧
  (∀ (dst src : Operand) (s : State), ∃ t, exec (.or dst src) s = .next t ∧ DataEffect (fun x v => x ||| v) dst src s t)

/-- `ADD` (`43_data_ops.md` R110): the exact sum modulo `2 ^ XLEN`. -/
def Obligations.AddWrapsAround : Prop :=
  (∀ a1 a2, instrOf ⟨[0x41, 0x44, 0x44], a1, a2⟩ = some (.add (operandOf a1) (operandOf a2))) ∧
  (∀ (dst src : Operand) (s : State), ∃ t, exec (.add dst src) s = .next t ∧
    DataEffect (fun x v => (x + v) % 2 ^ s.xlen) dst src s t)

/-- `SUB` (`43_data_ops.md` R111): destination minus source modulo `2 ^ XLEN`, the number in `[0, 2 ^ XLEN - 1]` that differs from the exact difference by a multiple of
`2 ^ XLEN`. -/
def Obligations.SubWrapsAround : Prop :=
  (∀ a1 a2, instrOf ⟨[0x53, 0x55, 0x42], a1, a2⟩ = some (.sub (operandOf a1) (operandOf a2))) ∧
  (∀ (dst src : Operand) (s : State), ∃ t f, exec (.sub dst src) s = .next t ∧ DataEffect f dst src s t ∧
    ∀ x v, f x v < 2 ^ s.xlen ∧ ∃ k : Int, (x : Int) - (v : Int) = (f x v : Int) + k * ((2 ^ s.xlen : Nat) : Int))

/-- `SHL` (`43_data_ops.md`, section 2): the product with `2 ^ n` modulo `2 ^ XLEN`, for every amount. That an amount of `XLEN` or more follows the formula too, and so gives 0,
is decision D12 of `92_eei_decisions.md` (log 11). -/
def Obligations.ShlMultipliesModulo : Prop :=
  (∀ a1 a2, instrOf ⟨[0x53, 0x48, 0x4C], a1, a2⟩ = some (.shl (operandOf a1) (operandOf a2))) ∧
  (∀ (dst amount : Operand) (s : State), ∃ t, exec (.shl dst amount) s = .next t ∧
    DataEffect (fun x n => x * 2 ^ n % 2 ^ s.xlen) dst amount s t)

/-- `SHR` (`43_data_ops.md`, section 2): the quotient by `2 ^ n` rounded down, for every amount. That an amount of `XLEN` or more follows the formula too, and so gives 0 for every
value in range, is decision D12 of `92_eei_decisions.md` (log 11). -/
def Obligations.ShrDividesRoundingDown : Prop :=
  (∀ a1 a2, instrOf ⟨[0x53, 0x48, 0x52], a1, a2⟩ = some (.shr (operandOf a1) (operandOf a2))) ∧
  (∀ (dst amount : Operand) (s : State), ∃ t, exec (.shr dst amount) s = .next t ∧
    DataEffect (fun x n => x / 2 ^ n) dst amount s t)

/-- `JMP` (`44_jmp_prt.md`, section 1): to the resolved target exactly when `REGX` is zero, else to the next line; no register is written; a literal target 0 does not validate (conflict
C2 of `90_conflicts.md`, log 10); a taken jump to a target at or past the program's end ends the run with success and the raw target in `pc`
(decision D13 of `92_eei_decisions.md`, log 16). -/
def Obligations.JmpJumpsWhenTheFlagIsZero : Prop :=
  (∀ a1 a2, instrOf ⟨[0x4A, 0x4D, 0x50], a1, a2⟩ = some (.jmp (operandOf a1))) ∧
  (∀ (target : Operand) (s : State), ∃ t, exec (.jmp target) s = .next t ∧
    (s.regx = 0 → t.pc = resolve s target) ∧ (s.regx ≠ 0 → t.pc = s.pc + 1) ∧
    SameRegs s t ∧ t.out = s.out ∧ SameEngineCells s t) ∧
  (∀ xlen, Instr.wellFormed xlen (.jmp (.lit 0)) = false) ∧
  (∀ (s : State) (line : Line) (target : Operand), s.status = .running → s.fetch s.pc = some line →
    decode s.inputs.cfg.tokenMax line = .instr (.jmp target) → Instr.wellFormed s.xlen (.jmp target) = true →
    s.regx = 0 → s.progLen ≤ resolve s target → s.count < s.inputs.cfg.ceiling →
    ∃ t, step s = .next t ∧ t.status = .haltedSuccess ∧ t.pc = resolve s target)

/-- `PRT` (`44_jmp_prt.md`, section 2): one record is appended, named for a register and blank for a literal; nothing else changes but `pc + 1`; `PRT 0` does not validate, so a blank record never carries 0;
as step number `CEILING + 1` it still emits its record before the run ends in `RunawayFault` (decision D15 of
`92_eei_decisions.md`, log 17). -/
def Obligations.PrtAppendsOneRecord : Prop :=
  (∀ a1 a2, instrOf ⟨[0x50, 0x52, 0x54], a1, a2⟩ = some (.prt (operandOf a1))) ∧
  (∀ (what : Operand) (s : State), ∃ t, exec (.prt what) s = .next t ∧
    (∀ r, what = .reg r → t.out = s.out ++ [⟨some r, s.readReg r⟩]) ∧
    (∀ v, what = .lit v → t.out = s.out ++ [⟨none, resolve s (.lit v)⟩]) ∧
    t.pc = s.pc + 1 ∧ SameRegs s t ∧ SameEngineCells s t) ∧
  (∀ (s : State) (v : Int), Instr.wellFormed s.xlen (.prt (.lit v)) = true → resolve s (.lit v) ≠ 0) ∧
  (∀ (s : State) (line : Line) (what : Operand), s.status = .running → s.fetch s.pc = some line →
    decode s.inputs.cfg.tokenMax line = .instr (.prt what) → Instr.wellFormed s.xlen (.prt what) = true →
    s.count = s.inputs.cfg.ceiling →
    ∃ t, step s = .next t ∧ t.out = s.out ++ [recordOf s what] ∧ t.status = .haltedError ∧ t.fault = .runawayFault)

/-! ## Laws of the arithmetic -/

/-- No operation leaves the range of a register (`43_data_ops.md` section 3). -/
def Obligations.ArithmeticStaysInRange : Prop :=
  ∀ xlen x v : Nat, x < 2 ^ xlen → v < 2 ^ xlen →
    aluSet x v < 2 ^ xlen ∧ aluAnd x v < 2 ^ xlen ∧ aluOr x v < 2 ^ xlen ∧ aluAdd xlen x v < 2 ^ xlen ∧ aluSub xlen x v < 2 ^ xlen ∧
    aluShl xlen x v < 2 ^ xlen ∧ aluShr x v < 2 ^ xlen

/-- Subtraction undoes addition and addition undoes subtraction, wrap-around included (`43_data_ops.md` section 3). -/
def Obligations.SubtractionUndoesAddition : Prop :=
  ∀ xlen x v : Nat, x < 2 ^ xlen → aluSub xlen (aluAdd xlen x v) v = x ∧ aluAdd xlen (aluSub xlen x v) v = x

/-- The shifts bit by bit: zeros enter, bits past the top are lost (`43_data_ops.md` section 2). The case of an amount of `XLEN` or more is decision D12 of
`92_eei_decisions.md` (log 11). -/
def Obligations.ShiftsMoveBits : Prop :=
  ∀ xlen x n k : Nat,
    (aluShl xlen x n).testBit k = (decide (k < xlen) && decide (n ≤ k) && x.testBit (k - n)) ∧
    (aluShr x n).testBit k = x.testBit (n + k)

/-! ## What any instruction can do -/

/-- Only the destination register named in arg1 is mutated (`43_data_ops.md` section 1, `10_state.md` section 1), and the inputs, `COUNT`, `STATE` and `FAULT` never. -/
def Obligations.OnlyTheNamedDestinationIsMutated : Prop :=
  ∀ (i : Instr) (s t : State), exec i s = .next t →
    (∀ r, destinationOf i ≠ some r → t.readReg r = s.readReg r) ∧ (i.opcode ≠ .prt → t.out = s.out) ∧ SameEngineCells s t

/-- After any instruction `pc` is one more than before, but after a taken `JMP`, where it is the resolved target (`95_test_vectors.md` section 1.2, Q1 and Q2;
`45_engine.md` section 5). -/
def Obligations.PcAdvancesByOneUnlessAJumpIsTaken : Prop :=
  ∀ (i : Instr) (s t : State), exec i s = .next t →
    (∀ target, i = .jmp target → s.regx = 0 → t.pc = resolve s target) ∧
    ((∀ target, i = .jmp target → s.regx ≠ 0) → t.pc = s.pc + 1)

/-- The resolver returns the most recently stored value (`40_operand_resolver.md` section 1, `95_test_vectors.md` Q3): after `SET` the destination resolves to what the source resolved to before, and
the same `SET` of a literal again changes only `pc`. -/
def Obligations.SetThenResolveIsFresh : Prop :=
  ∀ (s t u : State) (d : Reg) (src : Operand), exec (.set (.reg d) src) s = .next t → exec (.set (.reg d) src) t = .next u →
    resolve t (.reg d) = resolve s src ∧ (∀ v, src = .lit v → u = t.advancePc)

/-- No instruction reads `COUNT`, `STATE`, `FAULT` or `OUT` (`10_state.md` sections 2 and 3): two machines that differ in these alone get the same registers
and the same `pc`, and the same records are appended to `OUT`. -/
def Obligations.StatusCellsAreUnreadable : Prop :=
  ∀ (i : Instr) (s t u : State) (c : Nat) (e : EngineState) (f : FaultKind) (o : List OutRecord),
    exec i s = .next t → exec i { s with count := c, status := e, fault := f, out := o } = .next u →
    SameRegs t u ∧ u.pc = t.pc ∧ ∃ new, t.out = s.out ++ new ∧ u.out = o ++ new

/-! ## The engine -/

/-- A step runs the decoded instruction (`45_engine.md` section 2): where the line at `pc` decodes to a well-formed instruction, the step is that instruction's meaning followed by the end of the step. -/
def Obligations.StepRunsTheDecodedInstruction : Prop :=
  ∀ (s : State) (line : Line) (i : Instr), s.status = .running → s.fetch s.pc = some line →
    decode s.inputs.cfg.tokenMax line = .instr i → i.wellFormed s.xlen = true →
    step s = afterDispatch (exec i s) ∧ ∃ t, exec i s = .next t ∧ step s = .next (completeStep t)

/-- The end of a step (`45_engine.md` sections 2 and 3): the step is counted, then compared with the ceiling, then tested for termination. That the step which passes the ceiling keeps its effects is
decision D15 of `92_eei_decisions.md` (log 17); that a far `pc` is success is D13 (log 16). -/
def Obligations.CompletedStepIsCountedThenTested : Prop :=
  ∀ s : State,
    completeStep s =
      if s.inputs.cfg.ceiling < s.count + 1 then { s with count := s.count + 1, status := .haltedError, fault := .runawayFault }
      else if s.progLen ≤ s.pc then { s with count := s.count + 1, status := .haltedSuccess }
      else { s with count := s.count + 1 }

/-- A comment step (`45_engine.md`, section 2) writes `pc + 1` and `COUNT + 1` and nothing else, and is then subject to the ceiling test and the termination test. That it meets the
ceiling test is the spec's resolution of conflict C6 of `90_conflicts.md`, decision D15 of `92_eei_decisions.md` (log 17). -/
def Obligations.CommentStepOnlyAdvancesAndCounts : Prop :=
  ∀ (s : State) (line : Line), s.status = .running → s.fetch s.pc = some line → decodeLine s.inputs.cfg.tokenMax line = .comment →
    ∃ t, step s = .next t ∧ SameRegs s t ∧ t.pc = s.pc + 1 ∧ t.count = s.count + 1 ∧ t.out = s.out ∧ t.inputs = s.inputs ∧
      (s.inputs.cfg.ceiling < s.count + 1 → t.status = .haltedError ∧ t.fault = .runawayFault) ∧
      (s.count + 1 ≤ s.inputs.cfg.ceiling → t.fault = s.fault ∧ t.status = if s.progLen ≤ s.pc + 1 then .haltedSuccess else .running)

/-- A step that raises `DecodeFault` or `ValidationFault` writes nothing else (`45_engine.md` section 2). That such a step is not counted is decision D16 of
`92_eei_decisions.md` (log 17). -/
def Obligations.FaultStepsChangeNothingElse : Prop :=
  ∀ (s : State) (line : Line), s.status = .running → s.fetch s.pc = some line →
    (decodeLine s.inputs.cfg.tokenMax line = .decodeFault → step s = .next { s with status := .haltedError, fault := .decodeFault }) ∧
    (∀ d, decodeLine s.inputs.cfg.tokenMax line = .decoded d → validate s.xlen d = false →
      step s = .next { s with status := .haltedError, fault := .validationFault })

/-- The transition table (`45_engine.md` R142), row by row, and the two terminal states. In `Ready` the instruction pointer is 0, as reset left
it. -/
def Obligations.StepFollowsTheTransitionTable : Prop :=
  (∀ s : State, s.status = .ready → s.inputs.loadOk = false → step s = .next { s with status := .haltedError, fault := .loadFault }) ∧
  (∀ s : State, s.status = .ready → s.inputs.loadOk = true → s.progLen = 0 → step s = .next { s with status := .haltedSuccess }) ∧
  (∀ s : State, s.status = .ready → s.pc = 0 → s.inputs.loadOk = true → 0 < s.progLen → step s = .next { s with status := .running }) ∧
  (∀ (s : State) (line : Line), s.status = .running → s.fetch s.pc = some line → decodeLine s.inputs.cfg.tokenMax line = .decodeFault →
    step s = .next { s with status := .haltedError, fault := .decodeFault }) ∧
  (∀ (s : State) (line : Line) (d : Decoded), s.status = .running → s.fetch s.pc = some line →
    decodeLine s.inputs.cfg.tokenMax line = .decoded d → validate s.xlen d = false →
    step s = .next { s with status := .haltedError, fault := .validationFault }) ∧
  (∀ s u : State, s.status = .running → CompletesWith s u → s.inputs.cfg.ceiling < s.count + 1 →
    step s = .next { u with count := s.count + 1, status := .haltedError, fault := .runawayFault }) ∧
  (∀ s u : State, s.status = .running → CompletesWith s u → s.count + 1 ≤ s.inputs.cfg.ceiling → s.progLen ≤ u.pc →
    step s = .next { u with count := s.count + 1, status := .haltedSuccess }) ∧
  (∀ s u : State, s.status = .running → CompletesWith s u → s.count + 1 ≤ s.inputs.cfg.ceiling → u.pc < s.progLen →
    step s = .next { u with count := s.count + 1, status := .running }) ∧
  (∀ s : State, s.status = .haltedSuccess ∨ s.status = .haltedError → step s = .next s)

/-- Fault entry (`60_exceptions.md` R161): `raise` writes `FAULT` and `STATE` and nothing else. A step that raises `LoadFault`, `DecodeFault` or `ValidationFault` has had no other effect; one that raises
`RunawayFault` has kept the whole effect of its line and its count. -/
def Obligations.FaultsArePreciseAndSaveNothing : Prop :=
  (∀ (s : State) (f : FaultKind), s.raise f = { s with fault := f, status := .haltedError }) ∧
  (∀ s t : State, s.fault = .none → step s = .next t → t.fault ≠ .none →
    t.status = .haltedError ∧
    (t.fault ≠ .runawayFault → t = { s with fault := t.fault, status := .haltedError }) ∧
    (t.fault = .runawayFault → ∃ u, CompletesWith s u ∧
      t = { u with count := s.count + 1, fault := .runawayFault, status := .haltedError }))

/-- The fixed order of the faults (`60_exceptions.md` R162): at Start `LoadFault` before anything else; in a step the token length before the validator, the validator before the ceiling, the ceiling before success; and a
halted machine raises no second one. -/
def Obligations.FaultsHaveAFixedPriority : Prop :=
  (∀ s : State, s.status = .ready → s.inputs.loadOk = false → ∃ t, step s = .next t ∧ t.fault = .loadFault) ∧
  (∀ (s : State) (line : Line), s.status = .running → s.fault = .none → s.fetch s.pc = some line →
    ∃ t, step s = .next t ∧
      (decodeLine s.inputs.cfg.tokenMax line = .decodeFault → t.fault = .decodeFault) ∧
      (∀ d, decodeLine s.inputs.cfg.tokenMax line = .decoded d → validate s.xlen d = false → t.fault = .validationFault) ∧
      (decodeLine s.inputs.cfg.tokenMax line = .comment ∨
          (∃ d, decodeLine s.inputs.cfg.tokenMax line = .decoded d ∧ validate s.xlen d = true) →
        t.fault = if s.inputs.cfg.ceiling < s.count + 1 then .runawayFault else .none) ∧
      (t.status = .haltedSuccess → t.fault = .none)) ∧
  (∀ s t : State, s.status = .haltedError → step s = .next t → t = s)

/-- The program is never mutated and every fetch of an index returns the line loaded there (`20_memory.md` R41). -/
def Obligations.ProgramIsNeverMutated : Prop :=
  ∀ s t : State, step s = .next t → t.inputs.prog = s.inputs.prog ∧ t.inputs = s.inputs ∧ ∀ i, t.fetch i = s.fetch i

/-- Of the program store a step reads only the line at `pc` and the length (`20_memory.md` section 1): another program of the same length with the same line there gives the same step. -/
def Obligations.OnlyTheLineAtPcIsRead : Prop :=
  ∀ (s t : State) (prog : List Line), prog.length = s.progLen → prog[s.pc]? = s.fetch s.pc → step s = .next t →
    step { s with inputs := { s.inputs with prog := prog } } = .next { t with inputs := { t.inputs with prog := prog } }

/-- The output log is append-only, and only `PRT` appends to it, one record each (`10_state.md` section 2). -/
def Obligations.OutputIsAppendOnlyByPrt : Prop :=
  State.reset.out = [] ∧
  ∀ s t : State, step s = .next t →
    t.out = s.out ∨
    ∃ line what, s.status = .running ∧ s.fetch s.pc = some line ∧ decode s.inputs.cfg.tokenMax line = .instr (.prt what) ∧
      t.out = s.out ++ [recordOf s what]

/-- `COUNT` never goes down; it goes up, by exactly one, in the steps of `Running` that raise neither `DecodeFault` nor `ValidationFault` (`45_engine.md` section 3; that faulting steps are not counted is decision D16 of
`92_eei_decisions.md`, log 17). -/
def Obligations.CountGoesUpByOnePerCompletedStep : Prop :=
  ∀ s t : State, s.fault = .none → step s = .next t →
    t.count = if s.status = .running ∧ t.fault ≠ .decodeFault ∧ t.fault ≠ .validationFault then s.count + 1 else s.count

/-- The model's own stop (log 4): in `Running` with `pc` past the program, where `Fetch` is not defined, the step faults by name; in every other state it answers a next state. -/
def Obligations.StepFaultsOnlyOutsideTheProgram : Prop :=
  ∀ s : State,
    (s.status = .running ∧ s.progLen ≤ s.pc → step s = .fault .fetchOutsideProgram) ∧
    (s.status ≠ .running ∨ s.pc < s.progLen → ∃ t, step s = .next t)

/-! ## Reset, invariant, termination -/

/-- Reset (`70_reset_and_hazards.md` R180): it puts every cell at its reset value, whatever the state before; no program can cause it, since no step leads to `Ready`; and it is the only way out of the halted states. -/
def Obligations.ResetSetsEveryCell : Prop :=
  (∀ s : State, (∀ r, s.applyReset.readReg r = 0) ∧ s.applyReset.pc = 0 ∧ s.applyReset.count = 0 ∧ s.applyReset.status = .ready ∧
    s.applyReset.fault = .none ∧ s.applyReset.out = [] ∧ s.applyReset.inputs = s.inputs) ∧
  State.reset = State.reset.applyReset ∧
  (∀ s t : State, step s = .next t → t.status ≠ .ready) ∧
  (∀ s t : State, s.status = .haltedSuccess ∨ s.status = .haltedError → step s = .next t → t = s)

/-- The reset state satisfies the invariant, with any inputs the environment guarantees (`10_state.md` section 5). For `State.reset` itself the inputs are the model's choice (logs 1 and 2). -/
def Obligations.ResetSatisfiesTheInvariant : Prop :=
  (∀ inp : Inputs, inp.valid = true → GoodState (State.powerOn inp)) ∧ GoodState State.reset

/-- Every step keeps the invariant (`10_state.md` section 5, items (a) to (f)). -/
def Obligations.EveryStepKeepsTheInvariant : Prop :=
  ∀ s t : State, GoodState s → step s = .next t → GoodState t

/-- A state that satisfies the invariant always has a next state: the out-of-range fetch never happens (`20_memory.md` section 1). In `Running` the increment of `pc` cannot wrap (`10_state.md` section 1). -/
def Obligations.InvariantMeansProgress : Prop :=
  ∀ s : State, GoodState s → (∃ t, step s = .next t) ∧ (s.status = .running → s.pc + 1 < 2 ^ s.xlen)

/-- Every run halts (`45_engine.md` section 5; the spec derives it): from any state that satisfies the invariant within as many moves as the counter leaves, and from reset with any inputs at all after Start and at most `CEILING + 1` steps. -/
def Obligations.EveryRunHalts : Prop :=
  (∀ s : State, GoodState s → ∃ t : State, Host.Core.run Sys2Proof.core (s.inputs.cfg.ceiling + 2 - s.count) s = .next t ∧ t.halted = true) ∧
  (∀ inp : Inputs, ∃ t : State, Host.Core.run Sys2Proof.core (inp.cfg.ceiling + 2) (State.powerOn inp) = .next t ∧ t.halted = true)

/-! ## Output text -/

/-- The rendered line of a record (`44_jmp_prt.md` section 2) is its name or one blank, ` = `, and a numeral of digits alone, without a leading zero but for the numeral `0` of
0 itself, whose value is the record's; two records with the same line are the same; the text of the log is the rendered lines in order, each followed by one LF. The numeral's form is
decision D26 of `92_eei_decisions.md` and the LF is decision D20 (log 19). -/
def Obligations.RenderedRecordsAreFaithful : Prop :=
  (∀ r v, render ⟨some r, v⟩ = regName r ++ [0x20, 0x3D, 0x20] ++ decimal v) ∧
  (∀ v, render ⟨none, v⟩ = [0x20, 0x20, 0x3D, 0x20] ++ decimal v) ∧
  decimal 0 = [0x30] ∧
  (∀ v, (∀ c ∈ decimal v, isDigit c = true) ∧ (v ≠ 0 → (decimal v).head? ≠ some 0x30) ∧ decimal v ≠ [] ∧ digitsValue (decimal v) = v) ∧
  (∀ r q : OutRecord, render r = render q → r = q) ∧
  renderLog [] = [] ∧
  (∀ (log : List OutRecord) (r : OutRecord), renderLog (log ++ [r]) = renderLog log ++ render r ++ [0x0A])
end

