-- ==== Sys2Proof/Laws/Decode.lean ====
section
/-! SUPPORT. The small lemmas of the decoder and the encoder. -/

namespace Sys2Proof

/-! ## The two tables -/

@[simp] theorem opcodeOf_mnemonic (o : Opcode) : opcodeOf (mnemonic o) = some o := by cases o <;> decide

/-- A token names an opcode only if it is its mnemonic, byte for byte (`30_encoding.md` R50). -/
theorem opcodeOf_eq_some {t : Token} {o : Opcode} : opcodeOf t = some o ↔ t = mnemonic o := by
  constructor
  · intro h
    have hp := List.find?_some h
    exact (eq_of_beq hp).symm
  · rintro rfl
    exact opcodeOf_mnemonic o

theorem opcodeOf_eq_none {t : Token} : opcodeOf t = none ↔ ∀ o, mnemonic o ≠ t := by
  constructor
  · intro h o ho
    rw [← ho, opcodeOf_mnemonic] at h
    cases h
  · intro h
    cases ho : opcodeOf t with
    | none => rfl
    | some o => exact absurd (opcodeOf_eq_some.1 ho).symm (h o)

@[simp] theorem regOf_regName (r : Reg) : regOf (regName r) = some r := by cases r <;> decide

/-- A token names a register only if it is its name, byte for byte (`30_encoding.md` R51). -/
theorem regOf_eq_some {t : Token} {r : Reg} : regOf t = some r ↔ t = regName r := by
  constructor
  · intro h
    have hp := List.find?_some h
    exact (eq_of_beq hp).symm
  · rintro rfl
    exact regOf_regName r

theorem regOf_eq_none {t : Token} : regOf t = none ↔ ∀ r, regName r ≠ t := by
  constructor
  · intro h r hr
    rw [← hr, regOf_regName] at h
    cases h
  · intro h
    cases hr : regOf t with
    | none => rfl
    | some r => exact absurd (regOf_eq_some.1 hr).symm (h r)

/-! ## Cutting fields (`41_decoder.md` R78) -/

theorem cutField_of_no_space {f : Token} (h : space ∉ f) : cutField f = (f, none) := by
  induction f with
  | nil => rfl
  | cons c cs ih =>
    have hc : c ≠ space := fun e => h (by simp [e])
    have hcs : space ∉ cs := fun e => h (by simp [e])
    simp [cutField, hc, ih hcs]

theorem cutField_append_space {f : Token} (h : space ∉ f) (rest : Line) : cutField (f ++ space :: rest) = (f, some rest) := by
  induction f with
  | nil => simp [cutField]
  | cons c cs ih =>
    have hc : c ≠ space := fun e => h (by simp [e])
    have hcs : space ∉ cs := fun e => h (by simp [e])
    simp [cutField, hc, ih hcs]

/-- A field never holds the separator. -/
theorem space_not_mem_cutField (s : Line) : space ∉ (cutField s).1 := by
  induction s with
  | nil => simp [cutField]
  | cons c cs ih =>
    by_cases hc : c = space
    · simp [cutField, hc]
    · simp only [cutField, if_neg hc]
      intro hm
      rcases List.mem_cons.1 hm with h | h
      · exact hc h.symm
      · exact ih h

theorem space_not_mem_mnemonic (o : Opcode) : space ∉ mnemonic o := by cases o <;> decide

/-- The opcode field of an encoded instruction is its mnemonic. -/
theorem cut3_encode_opcode (i : Instr) : (cut3 (encode i)).opcode = mnemonic i.opcode := by
  unfold encode cut3
  cases hp : i.operands with
  | nil => simp [cutField_of_no_space (space_not_mem_mnemonic i.opcode)]
  | cons p ps =>
    rw [List.flatMap_cons, List.cons_append]
    rw [cutField_append_space (space_not_mem_mnemonic i.opcode)]

end Sys2Proof
end

