-- ==== Sys2Proof/Laws/State.lean ====
section
/-! SUPPORT. One lemma per cell per update, so that no later proof unfolds a record update. -/

namespace Sys2Proof.Machine

/-! ## Register writes -/

@[simp] theorem readReg_writeReg_same (s : State) (r : Reg) (v : Nat) : (s.writeReg r v).readReg r = v := by
  cases r <;> rfl

theorem readReg_writeReg_other (s : State) {r q : Reg} (v : Nat) (h : q ≠ r) : (s.writeReg r v).readReg q = s.readReg q := by
  cases r <;> cases q <;> first | rfl | exact absurd rfl h

theorem readReg_writeReg (s : State) (r q : Reg) (v : Nat) :
    (s.writeReg r v).readReg q = if q = r then v else s.readReg q := by
  by_cases h : q = r
  · subst h; simp
  · simp [h, readReg_writeReg_other s v h]

@[simp] theorem inputs_writeReg (s : State) (r : Reg) (v : Nat) : (s.writeReg r v).inputs = s.inputs := by cases r <;> rfl
@[simp] theorem pc_writeReg (s : State) (r : Reg) (v : Nat) : (s.writeReg r v).pc = s.pc := by cases r <;> rfl
@[simp] theorem count_writeReg (s : State) (r : Reg) (v : Nat) : (s.writeReg r v).count = s.count := by cases r <;> rfl
@[simp] theorem status_writeReg (s : State) (r : Reg) (v : Nat) : (s.writeReg r v).status = s.status := by cases r <;> rfl
@[simp] theorem fault_writeReg (s : State) (r : Reg) (v : Nat) : (s.writeReg r v).fault = s.fault := by cases r <;> rfl
@[simp] theorem out_writeReg (s : State) (r : Reg) (v : Nat) : (s.writeReg r v).out = s.out := by cases r <;> rfl

/-! ## `pc` -/

@[simp] theorem pc_setPc (s : State) (v : Nat) : (s.setPc v).pc = v := rfl
@[simp] theorem readReg_setPc (s : State) (v : Nat) (r : Reg) : (s.setPc v).readReg r = s.readReg r := by cases r <;> rfl
@[simp] theorem inputs_setPc (s : State) (v : Nat) : (s.setPc v).inputs = s.inputs := rfl
@[simp] theorem count_setPc (s : State) (v : Nat) : (s.setPc v).count = s.count := rfl
@[simp] theorem status_setPc (s : State) (v : Nat) : (s.setPc v).status = s.status := rfl
@[simp] theorem fault_setPc (s : State) (v : Nat) : (s.setPc v).fault = s.fault := rfl
@[simp] theorem out_setPc (s : State) (v : Nat) : (s.setPc v).out = s.out := rfl

@[simp] theorem pc_advancePc (s : State) : s.advancePc.pc = s.pc + 1 := rfl
@[simp] theorem readReg_advancePc (s : State) (r : Reg) : s.advancePc.readReg r = s.readReg r := by cases r <;> rfl
@[simp] theorem inputs_advancePc (s : State) : s.advancePc.inputs = s.inputs := rfl
@[simp] theorem count_advancePc (s : State) : s.advancePc.count = s.count := rfl
@[simp] theorem status_advancePc (s : State) : s.advancePc.status = s.status := rfl
@[simp] theorem fault_advancePc (s : State) : s.advancePc.fault = s.fault := rfl
@[simp] theorem out_advancePc (s : State) : s.advancePc.out = s.out := rfl

/-! ## `OUT` -/

@[simp] theorem out_emit (s : State) (r : OutRecord) : (s.emit r).out = s.out ++ [r] := rfl
@[simp] theorem readReg_emit (s : State) (r : OutRecord) (q : Reg) : (s.emit r).readReg q = s.readReg q := by cases q <;> rfl
@[simp] theorem inputs_emit (s : State) (r : OutRecord) : (s.emit r).inputs = s.inputs := rfl
@[simp] theorem pc_emit (s : State) (r : OutRecord) : (s.emit r).pc = s.pc := rfl
@[simp] theorem count_emit (s : State) (r : OutRecord) : (s.emit r).count = s.count := rfl
@[simp] theorem status_emit (s : State) (r : OutRecord) : (s.emit r).status = s.status := rfl
@[simp] theorem fault_emit (s : State) (r : OutRecord) : (s.emit r).fault = s.fault := rfl

/-! ## `COUNT` -/

@[simp] theorem count_countStep (s : State) : s.countStep.count = s.count + 1 := rfl
@[simp] theorem readReg_countStep (s : State) (r : Reg) : s.countStep.readReg r = s.readReg r := by cases r <;> rfl
@[simp] theorem inputs_countStep (s : State) : s.countStep.inputs = s.inputs := rfl
@[simp] theorem pc_countStep (s : State) : s.countStep.pc = s.pc := rfl
@[simp] theorem status_countStep (s : State) : s.countStep.status = s.status := rfl
@[simp] theorem fault_countStep (s : State) : s.countStep.fault = s.fault := rfl
@[simp] theorem out_countStep (s : State) : s.countStep.out = s.out := rfl

/-! ## `STATE` and `FAULT` -/

@[simp] theorem status_setStatus (s : State) (e : EngineState) : (s.setStatus e).status = e := rfl
@[simp] theorem readReg_setStatus (s : State) (e : EngineState) (r : Reg) : (s.setStatus e).readReg r = s.readReg r := by
  cases r <;> rfl
@[simp] theorem inputs_setStatus (s : State) (e : EngineState) : (s.setStatus e).inputs = s.inputs := rfl
@[simp] theorem pc_setStatus (s : State) (e : EngineState) : (s.setStatus e).pc = s.pc := rfl
@[simp] theorem count_setStatus (s : State) (e : EngineState) : (s.setStatus e).count = s.count := rfl
@[simp] theorem fault_setStatus (s : State) (e : EngineState) : (s.setStatus e).fault = s.fault := rfl
@[simp] theorem out_setStatus (s : State) (e : EngineState) : (s.setStatus e).out = s.out := rfl

@[simp] theorem status_raise (s : State) (f : FaultKind) : (s.raise f).status = .haltedError := rfl
@[simp] theorem fault_raise (s : State) (f : FaultKind) : (s.raise f).fault = f := rfl
@[simp] theorem readReg_raise (s : State) (f : FaultKind) (r : Reg) : (s.raise f).readReg r = s.readReg r := by cases r <;> rfl
@[simp] theorem inputs_raise (s : State) (f : FaultKind) : (s.raise f).inputs = s.inputs := rfl
@[simp] theorem pc_raise (s : State) (f : FaultKind) : (s.raise f).pc = s.pc := rfl
@[simp] theorem count_raise (s : State) (f : FaultKind) : (s.raise f).count = s.count := rfl
@[simp] theorem out_raise (s : State) (f : FaultKind) : (s.raise f).out = s.out := rfl

/-! ## Views of the inputs -/

@[simp] theorem xlen_writeReg (s : State) (r : Reg) (v : Nat) : (s.writeReg r v).xlen = s.xlen := by cases r <;> rfl
@[simp] theorem xlen_setPc (s : State) (v : Nat) : (s.setPc v).xlen = s.xlen := rfl
@[simp] theorem xlen_advancePc (s : State) : s.advancePc.xlen = s.xlen := rfl
@[simp] theorem xlen_emit (s : State) (r : OutRecord) : (s.emit r).xlen = s.xlen := rfl
@[simp] theorem xlen_countStep (s : State) : s.countStep.xlen = s.xlen := rfl
@[simp] theorem xlen_setStatus (s : State) (e : EngineState) : (s.setStatus e).xlen = s.xlen := rfl
@[simp] theorem xlen_raise (s : State) (f : FaultKind) : (s.raise f).xlen = s.xlen := rfl

@[simp] theorem progLen_writeReg (s : State) (r : Reg) (v : Nat) : (s.writeReg r v).progLen = s.progLen := by cases r <;> rfl
@[simp] theorem progLen_setPc (s : State) (v : Nat) : (s.setPc v).progLen = s.progLen := rfl
@[simp] theorem progLen_advancePc (s : State) : s.advancePc.progLen = s.progLen := rfl
@[simp] theorem progLen_emit (s : State) (r : OutRecord) : (s.emit r).progLen = s.progLen := rfl
@[simp] theorem progLen_countStep (s : State) : s.countStep.progLen = s.progLen := rfl
@[simp] theorem progLen_setStatus (s : State) (e : EngineState) : (s.setStatus e).progLen = s.progLen := rfl
@[simp] theorem progLen_raise (s : State) (f : FaultKind) : (s.raise f).progLen = s.progLen := rfl

theorem xlen_of_inputs {s t : State} (h : t.inputs = s.inputs) : t.xlen = s.xlen := by simp [State.xlen, h]
theorem progLen_of_inputs {s t : State} (h : t.inputs = s.inputs) : t.progLen = s.progLen := by simp [State.progLen, h]
theorem fetch_of_inputs {s t : State} (h : t.inputs = s.inputs) (i : Nat) : t.fetch i = s.fetch i := by simp [State.fetch, h]

/-- Two states with the same cells are the same state. -/
theorem State.ext_cells {s t : State} (hi : t.inputs = s.inputs) (hr : ∀ r, t.readReg r = s.readReg r) (hp : t.pc = s.pc)
    (hc : t.count = s.count) (hs : t.status = s.status) (hf : t.fault = s.fault) (ho : t.out = s.out) : t = s := by
  have ha := hr .a
  have hb := hr .b
  have hc' := hr .c
  have hx := hr .x
  cases s
  cases t
  simp_all [State.readReg]

end Sys2Proof.Machine
end

