-- ==== Sys2Proof/Laws/Ops.lean ====
section
/-! SUPPORT. For each shared operation, what it can do, said once. -/

namespace Sys2Proof.Machine

/-! ## The program store -/

/-- `Fetch` is defined exactly below `prog_len` (`20_memory.md` R33). -/
theorem fetch_isSome (s : State) (i : Nat) : (s.fetch i).isSome ↔ i < s.progLen := by
  simp [State.fetch, State.progLen]

theorem fetch_eq_none (s : State) (i : Nat) : s.fetch i = none ↔ s.progLen ≤ i := by
  simp [State.fetch, State.progLen]

/-- What stands at every index after a line is placed. -/
theorem getElem?_placeLine (p : List Line) (i : Nat) (l : Line) (j : Nat) :
    (placeLine p i l)[j]? = if j = i then some l else if p[j]? = none ∧ j < i then some [] else p[j]? := by
  induction p, i, l using placeLine.induct generalizing j with
  | case1 l => cases j <;> simp [placeLine]
  | case2 q ps l => cases j <;> simp [placeLine]
  | case3 i l ih => cases j <;> simp [placeLine, ih]
  | case4 q ps i l ih => cases j <;> simp [placeLine, ih]

/-- The line placed for the host's word is the one the next step fetches. -/
theorem fetch_withFetchWord (s : State) (nbits w : Nat) :
    (s.withFetchWord nbits w).fetch s.pc = some (charsOfWord (nbits / 8) w) := by
  simp [State.withFetchWord, State.fetch, getElem?_placeLine]

/-- Placing a line keeps the contract of the program store (`20_memory.md` R32) where index and line respect it. -/
theorem placeLine_wf (inp : Inputs) (i : Nat) (l : Line) (hw : Memory.wf inp = true) (hi : i < inp.cfg.progMax)
    (hl : l.length ≤ inp.cfg.lineMax) : Memory.wf { inp with prog := placeLine inp.prog i l } = true := by
  have hlen : ∀ (p : List Line) (k : Nat), (placeLine p k l).length = max p.length (k + 1) := by
    intro p k
    induction p, k, l using placeLine.induct with
    | case1 l => simp [placeLine]
    | case2 q ps l => simp [placeLine]
    | case3 k l ih => simp [placeLine, ih hl]
    | case4 q ps k l ih => simp [placeLine, ih hl]
  have hmem : ∀ (p : List Line) (k : Nat), ∀ m ∈ placeLine p k l, m = l ∨ m = [] ∨ m ∈ p := by
    intro p k m hm
    obtain ⟨j, hj⟩ := List.mem_iff_getElem?.1 hm
    rw [getElem?_placeLine] at hj
    split at hj
    · left; simpa using hj.symm
    · split at hj
      · right; left; simpa using hj.symm
      · right; right; exact List.mem_of_getElem? hj
  simp only [Memory.wf, Bool.and_eq_true, decide_eq_true_eq, List.all_eq_true] at hw ⊢
  refine ⟨by rw [hlen]; omega, fun m hm => ?_⟩
  rcases hmem _ _ m hm with rfl | rfl | h
  · exact hl
  · simp
  · exact hw.2 m h

/-- Reset keeps what the environment handed over, and nothing else. -/
theorem inputs_applyReset (s : State) : s.applyReset.inputs = s.inputs := rfl

/-! ## The data frame -/

/-- The frame of the seven data instructions has the effect of `43_data_ops.md` R105. -/
theorem dataOp_effect (f : Nat → Nat → Nat) (dst src : Operand) (s : State) : DataEffect f dst src s (dataOp f dst src s) := by
  cases dst with
  | reg d =>
    refine ⟨?_, ?_, ?_, ?_, ?_⟩
    · intro e he
      cases he
      refine ⟨by simp [dataOp, destOf], fun r hr => ?_⟩
      simp [dataOp, destOf, readReg_writeReg_other _ _ hr]
    · intro v hv; cases hv
    · simp [dataOp, destOf]
    · simp [dataOp, destOf]
    · refine ⟨by simp [dataOp, destOf], fun i => fetch_of_inputs (by simp [dataOp, destOf]) i, ?_, ?_, ?_⟩ <;>
        simp [dataOp, destOf]
  | lit v =>
    refine ⟨?_, ?_, rfl, rfl, rfl, fun i => rfl, rfl, rfl, rfl⟩
    · intro e he; cases he
    · intro w _ r; simp [dataOp, destOf]

/-! ## The end of a step -/

/-- Everything the end of a step can do (`45_engine.md` R137). -/
theorem completeStep_cases (s : State) :
    (s.inputs.cfg.ceiling < s.count + 1 ∧ completeStep s = s.countStep.raise .runawayFault) ∨
    (s.count + 1 ≤ s.inputs.cfg.ceiling ∧ s.progLen ≤ s.pc ∧ completeStep s = s.countStep.setStatus .haltedSuccess) ∨
    (s.count + 1 ≤ s.inputs.cfg.ceiling ∧ s.pc < s.progLen ∧ completeStep s = s.countStep) := by
  have hl : s.countStep.progLen = s.progLen := progLen_of_inputs rfl
  unfold completeStep
  by_cases h : s.inputs.cfg.ceiling < s.count + 1
  · left; simp [h]
  · right
    have h' : s.count + 1 ≤ s.inputs.cfg.ceiling := Nat.le_of_not_lt h
    by_cases hp : s.progLen ≤ s.pc
    · left; simp [h, h', hl, hp]
    · right; simp [h, h', hl, hp, Nat.lt_of_not_le hp]

@[simp] theorem inputs_completeStep (s : State) : (completeStep s).inputs = s.inputs := by
  rcases completeStep_cases s with ⟨_, h⟩ | ⟨_, _, h⟩ | ⟨_, _, h⟩ <;> simp [h]
@[simp] theorem readReg_completeStep (s : State) (r : Reg) : (completeStep s).readReg r = s.readReg r := by
  rcases completeStep_cases s with ⟨_, h⟩ | ⟨_, _, h⟩ | ⟨_, _, h⟩ <;> simp [h]
@[simp] theorem pc_completeStep (s : State) : (completeStep s).pc = s.pc := by
  rcases completeStep_cases s with ⟨_, h⟩ | ⟨_, _, h⟩ | ⟨_, _, h⟩ <;> simp [h]
@[simp] theorem out_completeStep (s : State) : (completeStep s).out = s.out := by
  rcases completeStep_cases s with ⟨_, h⟩ | ⟨_, _, h⟩ | ⟨_, _, h⟩ <;> simp [h]
@[simp] theorem count_completeStep (s : State) : (completeStep s).count = s.count + 1 := by
  rcases completeStep_cases s with ⟨_, h⟩ | ⟨_, _, h⟩ | ⟨_, _, h⟩ <;> simp [h]

/-! ## Start -/

/-- Everything Start can do (`45_engine.md` R136). -/
theorem start_cases (s : State) :
    (s.inputs.loadOk = false ∧ start s = s.raise .loadFault) ∨
    (s.inputs.loadOk = true ∧ s.progLen ≤ s.pc ∧ start s = s.setStatus .haltedSuccess) ∨
    (s.inputs.loadOk = true ∧ s.pc < s.progLen ∧ start s = s.setStatus .running) := by
  unfold start
  cases hl : s.inputs.loadOk
  · left; simp
  · right
    by_cases hp : s.progLen ≤ s.pc
    · left; simp [hp]
    · right; simp [hp, Nat.lt_of_not_le hp]

/-! ## The validator and the instruction it lets through -/

/-- A triple that passes the validator stands for an instruction (`42_validator.md` R90). -/
theorem instrOf_of_validate {xlen : Nat} {d : Decoded} (h : validate xlen d = true) : ∃ i, instrOf d = some i := by
  unfold validate at h
  unfold instrOf
  cases ho : opcodeOf d.opcode with
  | none => simp [ho] at h
  | some o => exact ⟨instrWith o d.arg1 d.arg2, rfl⟩

/-! ## Dispatch -/

/-- Every handler succeeds (`43_data_ops.md` R105). -/
theorem exec_next (i : Instr) (s : State) : ∃ t, exec i s = .next t := by
  cases i <;> exact ⟨_, rfl⟩

/-- No handler writes the engine's cells or the inputs (`10_state.md` R14, R24). -/
theorem exec_engineCells {i : Instr} {s t : State} (h : exec i s = .next t) : SameEngineCells s t := by
  cases i with
  | nop => cases h; exact ⟨rfl, fun _ => rfl, rfl, rfl, rfl⟩
  | set p q => cases h; exact (dataOp_effect aluSet p q s).2.2.2.2
  | and p q => cases h; exact (dataOp_effect aluAnd p q s).2.2.2.2
  | or p q => cases h; exact (dataOp_effect aluOr p q s).2.2.2.2
  | add p q => cases h; exact (dataOp_effect (aluAdd s.xlen) p q s).2.2.2.2
  | sub p q => cases h; exact (dataOp_effect (aluSub s.xlen) p q s).2.2.2.2
  | shl p q => cases h; exact (dataOp_effect (aluShl s.xlen) p q s).2.2.2.2
  | shr p q => cases h; exact (dataOp_effect aluShr p q s).2.2.2.2
  | jmp p =>
    cases h
    unfold SameEngineCells
    split <;> exact ⟨rfl, fun _ => rfl, rfl, rfl, rfl⟩
  | prt p => cases h; exact ⟨rfl, fun _ => rfl, rfl, rfl, rfl⟩

/-- The inputs are never written: the one law of the program store under dispatch (`20_memory.md` R41). -/
theorem exec_inputs {i : Instr} {s t : State} (h : exec i s = .next t) : t.inputs = s.inputs := (exec_engineCells h).1

/-! ## The step in `Running` -/

/-- Everything a step in `Running` can do (`45_engine.md` R137). -/
theorem runStep_cases (s : State) :
    (s.progLen ≤ s.pc ∧ runStep s = .fault .fetchOutsideProgram) ∨
    (∃ line, s.fetch s.pc = some line ∧ decodeLine s.inputs.cfg.tokenMax line = .decodeFault ∧
      runStep s = .next (s.raise .decodeFault)) ∨
    (∃ line d, s.fetch s.pc = some line ∧ decodeLine s.inputs.cfg.tokenMax line = .decoded d ∧ validate s.xlen d = false ∧
      runStep s = .next (s.raise .validationFault)) ∨
    (∃ u, CompletesWith s u ∧ runStep s = .next (completeStep u)) := by
  unfold runStep
  cases hf : s.fetch s.pc with
  | none => left; exact ⟨(fetch_eq_none s s.pc).1 hf, rfl⟩
  | some line =>
    right
    cases hd : decodeLine s.inputs.cfg.tokenMax line with
    | decodeFault => left; exact ⟨line, rfl, hd, by simp [runLine, hd]⟩
    | comment => right; right; exact ⟨s.advancePc, ⟨line, hf, .inl ⟨hd, rfl⟩⟩, by simp [runLine, hd]⟩
    | decoded d =>
      right
      cases hv : validate s.xlen d with
      | false => left; exact ⟨line, d, rfl, hd, hv, by simp [runLine, hd, runDecoded, hv]⟩
      | true =>
        right
        obtain ⟨i, hi⟩ := instrOf_of_validate hv
        obtain ⟨u, hu⟩ := exec_next i s
        exact ⟨u, ⟨line, hf, .inr ⟨d, i, hd, hv, hi, hu⟩⟩, by simp [runLine, hd, runDecoded, hv, hi, hu, afterDispatch]⟩

/-- Whatever takes effect, the engine's cells are as before it. -/
theorem completesWith_engineCells {s u : State} (h : CompletesWith s u) : SameEngineCells s u := by
  obtain ⟨line, _, ⟨_, rfl⟩ | ⟨d, i, _, _, _, hu⟩⟩ := h
  · exact ⟨rfl, fun _ => rfl, rfl, rfl, rfl⟩
  · exact exec_engineCells hu

/-- Every handler keeps the contract of the program store (`20_memory.md` R32). -/
theorem exec_memory_wf {i : Instr} {s t : State} (h : exec i s = .next t) (hw : Memory.wf s.inputs = true) :
    Memory.wf t.inputs = true := by
  rw [exec_inputs h]; exact hw

/-- The reset state's program store satisfies the contract. -/
theorem reset_memory_wf : Memory.wf State.reset.inputs = true := by decide

end Sys2Proof.Machine
end

