-- ==== Sys2Proof/Laws/PerInstr.lean ====
section
/-! SUPPORT. The statement families made per instruction (`LAWS.json`). -/

namespace Sys2Proof.Laws

/-- The first field the tokenizer cuts from the encoded line is the mnemonic of the instruction's row (`30_encoding.md` R47, R49). -/
def EncodedOpcode.Statement (i : Instr) : Prop := (cut3 (encode i)).opcode = mnemonic i.opcode

theorem EncodedOpcode.nop : EncodedOpcode.Statement .nop := cut3_encode_opcode _
theorem EncodedOpcode.set (dst src : Operand) : EncodedOpcode.Statement (.set dst src) := cut3_encode_opcode _
theorem EncodedOpcode.and (dst src : Operand) : EncodedOpcode.Statement (.and dst src) := cut3_encode_opcode _
theorem EncodedOpcode.or (dst src : Operand) : EncodedOpcode.Statement (.or dst src) := cut3_encode_opcode _
theorem EncodedOpcode.add (dst src : Operand) : EncodedOpcode.Statement (.add dst src) := cut3_encode_opcode _
theorem EncodedOpcode.sub (dst src : Operand) : EncodedOpcode.Statement (.sub dst src) := cut3_encode_opcode _
theorem EncodedOpcode.shl (dst amount : Operand) : EncodedOpcode.Statement (.shl dst amount) := cut3_encode_opcode _
theorem EncodedOpcode.shr (dst amount : Operand) : EncodedOpcode.Statement (.shr dst amount) := cut3_encode_opcode _
theorem EncodedOpcode.jmp (target : Operand) : EncodedOpcode.Statement (.jmp target) := cut3_encode_opcode _
theorem EncodedOpcode.prt (what : Operand) : EncodedOpcode.Statement (.prt what) := cut3_encode_opcode _

end Sys2Proof.Laws
end

