-- ==== Sys2Proof/Tests/Slice0.lean ====
section
/-! SUPPORT. Small tests on fixed values. Expected results come from `spec/95_test_vectors.md` and the worked tables of the section files; the
vector's name stands in each comment. The witnesses of the statements' hypotheses stand at the end. -/

namespace Sys2Proof.Tests

open Sys2Proof.Machine

/-! ## Helpers -/

/-- The characters of a text. -/
def txt (s : String) : Line := s.toList.map fun c => BitVec.ofNat 8 c.toNat

/-- The four named registers, in index order. -/
def bank (s : State) : List Nat := [s.rega, s.regb, s.regc, s.regx]

/-- A machine in `Running` at line 4 of a ten-line program whose line 4 is the given one: the start of the vectors of section 2.4. -/
def at4 (x : List Nat) (line : String) : State :=
  { State.powerOn { cfg := Config.default, prog := placeLine (List.replicate 10 (txt "NOP")) 4 (txt line), loadOk := true } with
    rega := x.getD 0 0
    regb := x.getD 1 0
    regc := x.getD 2 0
    regx := x.getD 3 0
    pc := 4
    status := .running }

/-- What the vectors say of a state: registers, `pc`, `COUNT`, `STATE`, `FAULT` and `OUT`. -/
structure View where
  bank : List Nat
  pc : Nat
  count : Nat
  status : EngineState
  fault : FaultKind
  out : List OutRecord
deriving DecidableEq, Repr

/-- The view of the state one step leads to; none unless the step answers a next state. -/
def stepView (s : State) : Option View :=
  match step s with
  | .next t => some ⟨bank t, t.pc, t.count, t.status, t.fault, t.out⟩
  | .fault _ => none
  | .refused _ => none

/-! ## The checks of WellFormed refuse an ill-formed term each -/

theorem test_refuses_zero_first_operand : Instr.wellFormed 32 (.jmp (.lit 0)) = false := by decide
theorem test_refuses_large_first_operand : Instr.wellFormed 32 (.prt (.lit 4294967296)) = false := by decide
theorem test_refuses_negative_second_operand : Instr.wellFormed 32 (.set (.reg .a) (.lit (-5))) = false := by decide
theorem test_refuses_large_second_operand : Instr.wellFormed 8 (.set (.reg .a) (.lit 256)) = false := by decide
theorem test_accepts_zero_second_operand : Instr.wellFormed 32 (.set (.reg .a) (.lit 0)) = true := by decide
theorem test_accepts_largest_second_operand : Instr.wellFormed 8 (.set (.reg .a) (.lit 255)) = true := by decide
theorem test_unspellable_literal : Instr.fits 3 (.set (.lit 1000) (.lit 0)) = false := by decide
theorem test_unspellable_register : Instr.fits 3 (.jmp (.reg .a)) = false := by decide
theorem test_unspellable_negative : Instr.fits 3 (.set (.lit 1) (.lit (-100))) = false := by decide
theorem test_unspellable_mnemonic : Instr.fits 2 .nop = false := by decide

/-! ## Decoding, from bytes written out from `30_encoding.md` R49 and R51 and programs P1, P2, P4 -/

theorem test_decode_nop : decode 16 [0x4E, 0x4F, 0x50] = .instr .nop := by decide
theorem test_decode_set : decode 16 [0x53, 0x45, 0x54, 0x20, 0x52, 0x45, 0x47, 0x41, 0x20, 0x35] = .instr (.set (.reg .a) (.lit 5)) := by
  decide
theorem test_decode_and : decode 16 [0x41, 0x4E, 0x44, 0x20, 0x52, 0x45, 0x47, 0x41, 0x20, 0x36] = .instr (.and (.reg .a) (.lit 6)) := by
  decide
theorem test_decode_or : decode 16 [0x4F, 0x52, 0x20, 0x52, 0x45, 0x47, 0x41, 0x20, 0x39] = .instr (.or (.reg .a) (.lit 9)) := by
  decide
theorem test_decode_add : decode 16 [0x41, 0x44, 0x44, 0x20, 0x52, 0x45, 0x47, 0x42, 0x20, 0x37] = .instr (.add (.reg .b) (.lit 7)) := by
  decide
theorem test_decode_sub : decode 16 [0x53, 0x55, 0x42, 0x20, 0x52, 0x45, 0x47, 0x41, 0x20, 0x31] = .instr (.sub (.reg .a) (.lit 1)) := by
  decide
theorem test_decode_shl :
    decode 16 [0x53, 0x48, 0x4C, 0x20, 0x52, 0x45, 0x47, 0x41, 0x20, 0x33, 0x30] = .instr (.shl (.reg .a) (.lit 30)) := by decide
theorem test_decode_shr :
    decode 16 [0x53, 0x48, 0x52, 0x20, 0x52, 0x45, 0x47, 0x58, 0x20, 0x52, 0x45, 0x47, 0x41] = .instr (.shr (.reg .x) (.reg .a)) := by
  decide
theorem test_decode_jmp : decode 16 [0x4A, 0x4D, 0x50, 0x20, 0x31] = .instr (.jmp (.lit 1)) := by decide
theorem test_decode_prt : decode 16 [0x50, 0x52, 0x54, 0x20, 0x52, 0x45, 0x47, 0x43] = .instr (.prt (.reg .c)) := by decide
theorem test_decode_comment : decode 16 [0x23, 0x20, 0x73, 0x70, 0x69, 0x6E] = .comment := by decide

/-- R84 and DE2 to DE11: terminators, double space, tab, trailing text, length bound. -/
theorem test_decode_terminators : decodeLine 16 (txt "ADD REGA 3\r\r\n\n") = .decoded ⟨txt "ADD", txt "REGA", txt "3"⟩ := by decide
theorem test_decode_double_space : decodeLine 16 (txt "SET  REGA 5") = .decoded ⟨txt "SET", [], txt "REGA"⟩ := by decide
theorem test_decode_inner_return : decodeLine 16 (txt "ADD REGA\r 3") = .decoded ⟨txt "ADD", txt "REGA\r", txt "3"⟩ := by decide
theorem test_decode_trailing_text : decodeLine 16 (txt "SET REGA 5 # five") = .decoded ⟨txt "SET", txt "REGA", txt "5"⟩ := by decide
theorem test_decode_overlong : decode 16 (txt "SET REGA 12345678901234567") = .overlongField := by decide
theorem test_decode_overlong_unused : decode 16 (txt "JMP 1 12345678901234567") = .overlongField := by decide
theorem test_decode_lower_case : decode 16 (txt "nop") = .unknownOpcode (txt "nop") := by decide
theorem test_decode_empty : decode 16 [] = .unknownOpcode [] := by decide

/-- The opcode table's rows, first character most significant. -/
theorem test_table_words :
    decodeTableWord 24 0x4E4F50 = some .nop ∧ decodeTableWord 16 0x4F52 = some (.or (.lit 0) (.lit 0)) ∧
    decodeTableWord 24 0x53484C = some (.shl (.lit 0) (.lit 0)) ∧ decodeTableWord 24 0x464F4F = none := by decide

/-- The literal table of section 2.2: rows 007, 0x10, 12abc, -5, -0, +5, 4294967296, rega. -/
theorem test_literals :
    ([txt "007", txt "0x10", txt "12abc", txt "-5", txt "-0", txt "+5", txt "4294967296", txt "rega"].map fun t => (litval t, sval t)) =
      [(7, 7), (0, 0), (12, 12), (0, -5), (0, 0), (0, 0), (4294967296, 4294967296), (0, 0)] := by decide

/-- Rows of the table of `42_validator.md` R99. -/
theorem test_validator :
    ([⟨txt "SET", txt "REGA", []⟩, ⟨txt "SET", txt "REGA", txt "-5"⟩, ⟨txt "SET", txt "5", txt "3"⟩, ⟨txt "SET", txt "REGAX", txt "5"⟩,
      ⟨txt "JMP", txt "0", []⟩, ⟨txt "JMP", txt "3", txt "-5"⟩, ⟨txt "NOP", txt "0", txt "-5"⟩, ⟨txt "FOO", txt "REGA", txt "1"⟩].map
        (validate 32)) = [true, false, true, false, false, true, true, false] := by decide

/-! ## Instructions, one step each (section 2.4) -/

theorem test_nop1 : stepView (at4 [1, 2, 3, 4] "NOP 0 -5") = some ⟨[1, 2, 3, 4], 5, 1, .running, .none, []⟩ := by decide
theorem test_set2 : stepView (at4 [9, 7, 0, 0] "SET REGA REGB") = some ⟨[7, 7, 0, 0], 5, 1, .running, .none, []⟩ := by decide
theorem test_set7 : stepView (at4 [9, 0, 0, 0] "SET 5 3") = some ⟨[9, 0, 0, 0], 5, 1, .running, .none, []⟩ := by decide
theorem test_and3 : stepView (at4 [12, 6, 0, 0] "AND REGA REGB") = some ⟨[4, 6, 0, 0], 5, 1, .running, .none, []⟩ := by decide
theorem test_or3 : stepView (at4 [0, 5, 0, 0] "OR REGX REGB") = some ⟨[0, 5, 0, 5], 5, 1, .running, .none, []⟩ := by decide
theorem test_add3 :
    stepView (at4 [4294967295, 0, 0, 0] "ADD REGA REGA") = some ⟨[4294967294, 0, 0, 0], 5, 1, .running, .none, []⟩ := by decide
theorem test_sub3 : stepView (at4 [5, 0, 0, 0] "SUB REGA 7") = some ⟨[4294967294, 0, 0, 0], 5, 1, .running, .none, []⟩ := by decide
theorem test_sub5 :
    stepView (at4 [5, 0, 0, 0] "SUB REGA -1") = some ⟨[5, 0, 0, 0], 4, 0, .haltedError, .validationFault, []⟩ := by decide
theorem test_shl3 : stepView (at4 [3, 0, 0, 0] "SHL REGA 31") = some ⟨[2147483648, 0, 0, 0], 5, 1, .running, .none, []⟩ := by decide
theorem test_shl5 : stepView (at4 [1, 0, 0, 0] "SHL REGA 4294967295") = some ⟨[0, 0, 0, 0], 5, 1, .running, .none, []⟩ := by decide
theorem test_shr2 : stepView (at4 [4294967295, 0, 0, 0] "SHR REGA 31") = some ⟨[1, 0, 0, 0], 5, 1, .running, .none, []⟩ := by decide
theorem test_shr6 : stepView (at4 [0, 0, 0, 1] "SHR REGX REGA") = some ⟨[0, 0, 0, 1], 5, 1, .running, .none, []⟩ := by decide
theorem test_jmp4 : stepView (at4 [0, 9, 0, 0] "JMP REGB") = some ⟨[0, 9, 0, 0], 9, 1, .running, .none, []⟩ := by decide
theorem test_jmp7 :
    stepView (at4 [0, 0, 0, 0] "JMP 4294967295") = some ⟨[0, 0, 0, 0], 4294967295, 1, .haltedSuccess, .none, []⟩ := by decide
theorem test_prt4 :
    stepView (at4 [0, 0, 4294967295, 0] "PRT REGC") =
      some ⟨[0, 0, 4294967295, 0], 5, 1, .running, .none, [⟨some .c, 4294967295⟩]⟩ := by decide
theorem test_prt5 :
    stepView (at4 [0, 0, 0, 0] "PRT 12abc") = some ⟨[0, 0, 0, 0], 5, 1, .running, .none, [⟨none, 12⟩]⟩ := by decide
theorem test_cmt1 : stepView (at4 [1, 2, 3, 4] "# SET REGA 9") = some ⟨[1, 2, 3, 4], 5, 1, .running, .none, []⟩ := by decide

/-! ## Engine (section 2.5) -/

/-- E1, E2: Start on an empty program and on a failed load. -/
theorem test_start :
    (start (State.powerOn Inputs.default)).status = .haltedSuccess ∧
    (start (State.powerOn { Inputs.default with prog := [txt "NOP"], loadOk := false })).fault = .loadFault := by decide

/-- The last step of E10: `CEILING = 0`, one `NOP`; the fault outranks the end of the program. -/
theorem test_runaway :
    stepView { State.powerOn { cfg := { Config.default with ceiling := 0 }, prog := [txt "NOP"], loadOk := true } with status := .running } =
      some ⟨[0, 0, 0, 0], 1, 1, .haltedError, .runawayFault, []⟩ := by decide

/-- The second step of E30: `XLEN = 8`, `ADD REGA 100` on 200. -/
theorem test_width_8 :
    stepView { State.powerOn { cfg := { Config.default with xlen := 8 }, prog := [txt "ADD REGA 100"], loadOk := true } with
      rega := 200, status := .running } = some ⟨[44, 0, 0, 0], 1, 1, .haltedSuccess, .none, []⟩ := by decide

/-- E31: an over-long token and an unknown opcode. -/
theorem test_fault_order :
    stepView (at4 [] "FOO REGA 12345678901234567") = some ⟨[0, 0, 0, 0], 4, 0, .haltedError, .decodeFault, []⟩ := by decide

/-- PRT1 and PRT3: the rendered text. -/
theorem test_render : renderLog [⟨some .a, 8⟩, ⟨none, 70⟩] = txt "REGA = 8\n  = 70\n" := by decide

/-- The word of the row `NOP`, placed in the reset state, runs as the first instruction. -/
theorem test_table_word_runs :
    stepView (State.reset.withFetchWord 24 0x4E4F50) = some ⟨[0, 0, 0, 0], 1, 1, .haltedSuccess, .none, []⟩ := by decide

/-! ## Witnesses: a concrete case that meets all hypotheses of each statement together -/

/-- A machine in `Running` at line 0 of the given program, under the given ceiling and with the given count. -/
def runningAt (ceiling count : Nat) (prog : List String) : State :=
  { State.powerOn { cfg := { Config.default with ceiling := ceiling }, prog := prog.map txt, loadOk := true } with
    count := count, status := .running }

/-- Every field of the reset state fits the invariant's hypotheses; so does a machine in `Running`. -/
theorem test_witness_good_reset : GoodState State.reset where
  inputsValid := by decide
  loadedWhenStarted := by decide
  regsInRange := by intro r; cases r <;> decide
  pcInRange := by decide
  runningInside := by decide
  successOutside := by decide
  countWithin := by decide
  countLimit := by decide
  countPast := by decide
  faultIffError := by decide
  outBounded := by decide

/-- The last line of a program that the ceiling ends: `COUNT = CEILING`, `pc = prog_len - 1`. -/
theorem test_witness_good_running : GoodState (runningAt 0 0 ["PRT 5"]) where
  inputsValid := by decide
  loadedWhenStarted := by decide
  regsInRange := by intro r; cases r <;> decide
  pcInRange := by decide
  runningInside := by decide
  successOutside := by decide
  countWithin := by decide
  countLimit := by decide
  countPast := by decide
  faultIffError := by decide
  outBounded := by decide

/-- EveryStepKeepsTheInvariant, InvariantMeansProgress and EveryRunHalts: a good state that steps, in `Ready` and in `Running`. -/
theorem test_witness_step_of_good : GoodState State.reset ∧ step State.reset = .next (State.reset.setStatus .haltedSuccess) ∧
    GoodState (runningAt 0 0 ["PRT 5"]) ∧ (runningAt 0 0 ["PRT 5"]).status = .running ∧
    stepView (runningAt 0 0 ["PRT 5"]) = some ⟨[0, 0, 0, 0], 1, 1, .haltedError, .runawayFault, [⟨none, 5⟩]⟩ :=
  ⟨test_witness_good_reset, rfl, test_witness_good_running, by decide, by decide⟩

theorem test_witness_ResetSatisfiesTheInvariant : Inputs.default.valid = true := by decide

/-! Encoding. -/

/-- A negative literal at the token bound: four characters with the minus sign. -/
theorem test_witness_DecodeOfEncode : Instr.fits 4 (.shr (.lit (-999)) (.reg .x)) = true ∧ Instr.fits 3 .nop = true := by decide
/-- The largest operand of the width, and the smallest token bound. -/
theorem test_witness_WellFormedInstructionsHaveALine :
    4 ≤ 4 ∧ 2 ^ 13 ≤ 10 ^ 4 ∧ Instr.wellFormed 13 (.prt (.lit 8191)) = true := by decide
theorem test_witness_TrailingTerminators : ∀ c ∈ ([0x0D, 0x0A] : Line), c = 0x0A ∨ c = 0x0D := by decide
theorem test_witness_DecodedFields :
    decodeLine 4 (txt "SET REGA 5") = .decoded ⟨txt "SET", txt "REGA", txt "5"⟩ ∧
    txt "REGA" ∈ [txt "SET", txt "REGA", txt "5"] := by decide
theorem test_witness_WideTokenBound : 64 ≤ 64 ∧ (List.replicate 64 0x41 : Line).length ≤ 64 := by decide
theorem test_witness_IgnoredContent : space ∉ txt "SET" ∧ space ∉ txt "REGA" ∧ space ∉ txt "5" := by decide
theorem test_witness_DecimalNumeralReadsBack : ∀ c, (txt "abc").head? = some c → isDigit c = false := by
  intro c h; cases h; decide
theorem test_witness_ResolveReadsRegisterOrLiteral :
    (∀ r, txt "rega" ≠ regName r) ∧ ∀ c, (txt "rega").head? = some c → isDigit c = false :=
  ⟨by intro r; cases r <;> decide, by intro c h; cases h; decide⟩
theorem test_witness_ValidatedLiterals :
    validate 32 ⟨txt "SET", txt "REGA", txt "4294967295"⟩ = true ∧
    instrOf ⟨txt "SET", txt "REGA", txt "4294967295"⟩ = some (.set (.reg .a) (.lit 4294967295)) ∧
    .lit 4294967295 ∈ (Instr.set (.reg .a) (.lit 4294967295)).operands := by decide

/-- The hypotheses shared by the statements about one line: `Running`, no fault, and the line there. -/
abbrev AtLine (line : String) : Prop :=
  (at4 [] line).status = .running ∧ (at4 [] line).fault = .none ∧ (at4 [] line).fetch (at4 [] line).pc = some (txt line)

/-- A legal line, one over-long by one character, and an illegal one, none of them a comment. -/
theorem test_witness_IllegalLines :
    AtLine "JMP 1" ∧ AtLine "SET REGA 12345678901234567" ∧ AtLine "JMP 0" ∧
    (stripTerminators (txt "JMP 1")).head? ≠ some commentMarker ∧
    (stripTerminators (txt "SET REGA 12345678901234567")).head? ≠ some commentMarker ∧
    (cut3 (txt "SET REGA 12345678901234567")).arg2.length = Config.default.tokenMax + 1 ∧
    (stripTerminators (txt "JMP 0")).head? ≠ some commentMarker ∧
    (cut3 (txt "JMP 0")).arg1 = txt "0" ∧ ¬ (1 ≤ sval (txt "0")) := by decide

/-! Instructions. -/

theorem test_witness_NopOnlyAdvances :
    (runningAt 7 7 ["NOP"]).status = .running ∧ (runningAt 7 7 ["NOP"]).fetch 0 = some (txt "NOP") ∧
    decode 16 (txt "NOP") = .instr .nop ∧ (runningAt 7 7 ["NOP"]).count = (runningAt 7 7 ["NOP"]).inputs.cfg.ceiling ∧
    (cut3 (txt "NOP 12345678901234567")).opcode = mnemonic .nop ∧
    hasOverlongField 16 (cut3 (txt "NOP 12345678901234567")) = true := by decide

/-- A taken jump to exactly the program's end. -/
theorem test_witness_JmpJumpsWhenTheFlagIsZero :
    (runningAt 1 0 ["JMP 1"]).status = .running ∧ (runningAt 1 0 ["JMP 1"]).fetch 0 = some (txt "JMP 1") ∧
    decode 16 (txt "JMP 1") = .instr (.jmp (.lit 1)) ∧ Instr.wellFormed 32 (.jmp (.lit 1)) = true ∧
    (runningAt 1 0 ["JMP 1"]).regx = 0 ∧ (runningAt 1 0 ["JMP 1"]).progLen ≤ resolve (runningAt 1 0 ["JMP 1"]) (.lit 1) ∧
    (runningAt 1 0 ["JMP 1"]).count < (runningAt 1 0 ["JMP 1"]).inputs.cfg.ceiling ∧ (at4 [0, 0, 0, 7] "JMP 1").regx ≠ 0 := by decide

/-- The smallest literal `PRT` accepts, in the step that passes the ceiling. -/
theorem test_witness_PrtAppendsOneRecord :
    Instr.wellFormed 32 (.prt (.lit 1)) = true ∧ (runningAt 0 0 ["PRT 1"]).status = .running ∧
    (runningAt 0 0 ["PRT 1"]).fetch 0 = some (txt "PRT 1") ∧ decode 16 (txt "PRT 1") = .instr (.prt (.lit 1)) ∧
    (runningAt 0 0 ["PRT 1"]).count = (runningAt 0 0 ["PRT 1"]).inputs.cfg.ceiling := by decide

theorem test_witness_Arithmetic : 4294967295 < 2 ^ 32 ∧ 1 < 2 ^ 32 := by decide

/-- OnlyTheNamedDestinationIsMutated, PcAdvancesByOneUnlessAJumpIsTaken: a data instruction, a taken jump and one not taken. -/
theorem test_witness_exec :
    exec (.set (.reg .b) (.lit 3)) (at4 [] "") = .next ((at4 [] "").writeReg .b 3).advancePc ∧
    destinationOf (.set (.reg .b) (.lit 3)) ≠ some .a ∧
    exec (.jmp (.lit 9)) (at4 [] "") = .next ((at4 [] "").setPc 9) ∧ (at4 [] "").regx = 0 ∧
    exec (.jmp (.lit 9)) (at4 [0, 0, 0, 1] "") = .next (at4 [0, 0, 0, 1] "").advancePc ∧ (at4 [0, 0, 0, 1] "").regx ≠ 0 :=
  ⟨rfl, by decide, rfl, rfl, rfl, by decide⟩

/-- SetThenResolveIsFresh: the same `SET` twice. -/
theorem test_witness_SetThenResolveIsFresh :
    exec (.set (.reg .a) (.lit 5)) (at4 [] "") = .next ((at4 [] "").writeReg .a 5).advancePc ∧
    exec (.set (.reg .a) (.lit 5)) ((at4 [] "").writeReg .a 5).advancePc = .next ((at4 [] "").writeReg .a 5).advancePc.advancePc :=
  ⟨rfl, rfl⟩

/-- StatusCellsAreUnreadable: the same `PRT` on two machines that differ in all four cells. -/
theorem test_witness_StatusCellsAreUnreadable :
    exec (.prt (.reg .c)) (at4 [] "") = .next ((at4 [] "").emit ⟨some .c, 0⟩).advancePc ∧
    exec (.prt (.reg .c)) { at4 [] "" with count := 9, status := .haltedError, fault := .runawayFault, out := [⟨none, 5⟩] } =
      .next { at4 [] "" with pc := 5, count := 9, status := .haltedError, fault := .runawayFault, out := [⟨none, 5⟩, ⟨some .c, 0⟩] } :=
  ⟨rfl, rfl⟩

/-! Engine. -/

theorem test_witness_StepRunsTheDecodedInstruction :
    AtLine "ADD REGB 7" ∧
    decode (at4 [] "ADD REGB 7").inputs.cfg.tokenMax (txt "ADD REGB 7") = .instr (.add (.reg .b) (.lit 7)) ∧
    Instr.wellFormed (at4 [] "ADD REGB 7").xlen (.add (.reg .b) (.lit 7)) = true := by decide

/-- A comment step on either side of the ceiling. -/
theorem test_witness_CommentStep :
    decodeLine 16 (txt "# x") = .comment ∧
    (runningAt 3 3 ["# x"]).fetch 0 = some (txt "# x") ∧ (runningAt 3 3 ["# x"]).inputs.cfg.ceiling < (runningAt 3 3 ["# x"]).count + 1 ∧
    (runningAt 3 2 ["# x"]).fetch 0 = some (txt "# x") ∧
    (runningAt 3 2 ["# x"]).count + 1 ≤ (runningAt 3 2 ["# x"]).inputs.cfg.ceiling := by decide

/-- The lines of FaultStepsChangeNothingElse and FaultsHaveAFixedPriority: over-long, ill-formed, well-formed; and a halted machine. -/
theorem test_witness_fault_lines :
    AtLine "PRT 12345678901234567" ∧ AtLine "JMP 0" ∧ AtLine "JMP 1" ∧
    ((at4 [] "").raise .decodeFault).status = .haltedError ∧
    decodeLine 16 (txt "PRT 12345678901234567") = .decodeFault ∧
    decodeLine 16 (txt "JMP 0") = .decoded ⟨txt "JMP", txt "0", []⟩ ∧ validate 32 ⟨txt "JMP", txt "0", []⟩ = false ∧
    decodeLine 16 (txt "JMP 1") = .decoded ⟨txt "JMP", txt "1", []⟩ ∧ validate 32 ⟨txt "JMP", txt "1", []⟩ = true := by decide

/-- The rows of the table that leave `Ready`. -/
theorem test_witness_table_ready :
    (State.powerOn { Inputs.default with loadOk := false }).status = .ready ∧
    (State.powerOn { Inputs.default with loadOk := false }).inputs.loadOk = false ∧
    State.reset.status = .ready ∧ State.reset.inputs.loadOk = true ∧ State.reset.progLen = 0 ∧
    (State.powerOn { Inputs.default with prog := [txt "NOP"] }).status = .ready ∧
    (State.powerOn { Inputs.default with prog := [txt "NOP"] }).pc = 0 ∧
    0 < (State.powerOn { Inputs.default with prog := [txt "NOP"] }).progLen := by decide

/-- A step that completes: `NOP`. -/
theorem test_witness_CompletesWith (ceiling count : Nat) (rest : List String) :
    CompletesWith (runningAt ceiling count ("NOP" :: rest)) (runningAt ceiling count ("NOP" :: rest)).advancePc :=
  ⟨txt "NOP", rfl, .inr ⟨⟨txt "NOP", [], []⟩, .nop, by change decodeLine 16 (txt "NOP") = _; decide,
    by change validate 32 _ = true; decide, by decide, rfl⟩⟩

/-- The rows of the table that complete a step, at the boundaries of their tests. -/
theorem test_witness_table_running :
    (let s := runningAt 5 5 ["NOP"]
     s.status = .running ∧ CompletesWith s s.advancePc ∧ s.inputs.cfg.ceiling < s.count + 1) ∧
    (let s := runningAt 5 4 ["NOP"]
     s.status = .running ∧ CompletesWith s s.advancePc ∧ s.count + 1 ≤ s.inputs.cfg.ceiling ∧ s.progLen ≤ s.advancePc.pc) ∧
    (let s := runningAt 5 4 ["NOP", "NOP"]
     s.status = .running ∧ CompletesWith s s.advancePc ∧ s.count + 1 ≤ s.inputs.cfg.ceiling ∧ s.advancePc.pc < s.progLen) :=
  ⟨⟨rfl, test_witness_CompletesWith 5 5 [], by decide⟩, ⟨rfl, test_witness_CompletesWith 5 4 [], by decide, by decide⟩,
    ⟨rfl, test_witness_CompletesWith 5 4 ["NOP"], by decide, by decide⟩⟩

/-- The two terminal states. -/
theorem test_witness_table_halted :
    step ((at4 [] "").setStatus .haltedSuccess) = .next ((at4 [] "").setStatus .haltedSuccess) ∧
    step ((at4 [] "").raise .decodeFault) = .next ((at4 [] "").raise .decodeFault) := ⟨rfl, rfl⟩

/-- FaultsArePreciseAndSaveNothing: each of the four kinds is raised by one step from a state without a fault. -/
theorem test_witness_FaultsArePrecise :
    stepView (State.powerOn { Inputs.default with loadOk := false }) = some ⟨[0, 0, 0, 0], 0, 0, .haltedError, .loadFault, []⟩ ∧
    stepView (at4 [] "PRT 12345678901234567") = some ⟨[0, 0, 0, 0], 4, 0, .haltedError, .decodeFault, []⟩ ∧
    stepView (at4 [] "JMP 0") = some ⟨[0, 0, 0, 0], 4, 0, .haltedError, .validationFault, []⟩ ∧
    stepView (runningAt 0 0 ["PRT 5"]) = some ⟨[0, 0, 0, 0], 1, 1, .haltedError, .runawayFault, [⟨none, 5⟩]⟩ ∧
    (runningAt 0 0 ["PRT 5"]).fault = .none := by decide

/-- ProgramIsNeverMutated, OutputIsAppendOnlyByPrt and CountGoesUpByOnePerCompletedStep: a step that answers a next state. -/
theorem test_witness_step :
    step (at4 [] "PRT REGC") = .next ((at4 [] "PRT REGC").emit ⟨some .c, 0⟩).advancePc.countStep ∧ (at4 [] "PRT REGC").fault = .none :=
  ⟨rfl, rfl⟩

/-- OnlyTheLineAtPcIsRead: a program that differs in every other line. -/
theorem test_witness_OnlyTheLineAtPcIsRead :
    (placeLine (List.replicate 10 (txt "FOO")) 4 (txt "PRT REGC")).length = (at4 [] "PRT REGC").progLen ∧
    (placeLine (List.replicate 10 (txt "FOO")) 4 (txt "PRT REGC"))[(at4 [] "PRT REGC").pc]? =
      (at4 [] "PRT REGC").fetch (at4 [] "PRT REGC").pc := by decide

/-- StepFaultsOnlyOutsideTheProgram: the first index past the program, the last one inside it, and a machine not in `Running`. -/
theorem test_witness_StepFaultsOnlyOutsideTheProgram :
    ((at4 [] "").setPc 10).status = .running ∧ (at4 [] "").progLen ≤ ((at4 [] "").setPc 10).pc ∧
    ((at4 [] "").setPc 9).pc < (at4 [] "").progLen ∧ State.reset.status ≠ .running := by decide

/-- ResetSetsEveryCell: a step out of `Ready`. -/
theorem test_witness_ResetSetsEveryCell :
    step State.reset = .next (State.reset.setStatus .haltedSuccess) ∧ (State.reset.setStatus .haltedSuccess).status = .haltedSuccess :=
  ⟨rfl, rfl⟩

/-- RenderedRecordsAreFaithful: a value other than 0, whose numeral has no leading zero, and 0. -/
theorem test_witness_RenderedRecordsAreFaithful :
    render ⟨some .a, 8⟩ = txt "REGA = 8" ∧ 8 ≠ 0 ∧ render ⟨some .b, 0⟩ = txt "REGB = 0" := by decide

end Sys2Proof.Tests
end

/-! PROOFS. The program store under one move of the engine (`20_memory.md` R41): Start, the step in `Running` and the halted states each
leave the inputs as they are, and a fetch reads nothing but the inputs. -/

namespace Sys2Proof.Machine

/-! ## One move, by engine state (`45_engine.md` R135, R142) -/

theorem step_of_ready {s : State} (h : s.status = .ready) : step s = .next (start s) := by simp [step, h]
theorem step_of_running {s : State} (h : s.status = .running) : step s = runStep s := by simp [step, h]
theorem step_of_haltedSuccess {s : State} (h : s.status = .haltedSuccess) : step s = .next s := by simp [step, h]
theorem step_of_haltedError {s : State} (h : s.status = .haltedError) : step s = .next s := by simp [step, h]

/-! ## The inputs under each part of a move -/

@[simp] theorem inputs_start (s : State) : (start s).inputs = s.inputs := by
  rcases start_cases s with ⟨_, h⟩ | ⟨_, _, h⟩ | ⟨_, _, h⟩ <;> simp [h]

/-- Whatever takes effect in `Running` writes no input. -/
theorem completesWith_inputs {s u : State} (h : CompletesWith s u) : u.inputs = s.inputs := by
  obtain ⟨hinputs, -⟩ := completesWith_engineCells h
  exact hinputs

theorem runStep_inputs {s t : State} (h : runStep s = .next t) : t.inputs = s.inputs := by
  rcases runStep_cases s with ⟨_, hr⟩ | ⟨_, _, _, hr⟩ | ⟨_, _, _, _, _, hr⟩ | ⟨u, hu, hr⟩ <;> rw [hr] at h <;> cases h
  · exact inputs_raise s .decodeFault
  · exact inputs_raise s .validationFault
  · calc (completeStep u).inputs
      _ = u.inputs := inputs_completeStep u
      _ = s.inputs := completesWith_inputs hu

/-- No move of the engine writes the inputs (`10_state.md` R20). -/
theorem step_inputs {s t : State} (h : step s = .next t) : t.inputs = s.inputs := by
  cases hs : s.status with
  | ready =>
    rw [step_of_ready hs] at h
    cases h
    exact inputs_start s
  | running =>
    rw [step_of_running hs] at h
    exact runStep_inputs h
  | haltedSuccess =>
    rw [step_of_haltedSuccess hs] at h
    cases h
    rfl
  | haltedError =>
    rw [step_of_haltedError hs] at h
    cases h
    rfl

/-- Settles O39: a step keeps the whole inputs, hence the program among them and every fetch, which reads the program alone. -/
theorem programIsNeverMutated : Obligations.ProgramIsNeverMutated := by
  intro s t h
  have hinputs : t.inputs = s.inputs := step_inputs h
  exact ⟨congrArg Inputs.prog hinputs, hinputs, fetch_of_inputs hinputs⟩

end Sys2Proof.Machine

/-! PROOFS. The illegal lines and the ignored content (`30_encoding.md` R55, R58): how the terminators come off a line, what the tokenizer
answers for a line that is no comment, and the validator and the step read off the three fields. -/

namespace Sys2Proof

/-! ## Stripping terminators (`41_decoder.md` R76) -/

/-- A character stays when it is no terminator or when something stays after it. -/
theorem stripTerminators_cons {c : Byte} {cs : Line} (h : isTerminator c = false ∨ stripTerminators cs ≠ []) :
    stripTerminators (c :: cs) = c :: stripTerminators cs := by
  cases hs : stripTerminators cs with
  | nil =>
    have hc : isTerminator c = false := h.resolve_right fun hne => hne hs
    simp [stripTerminators, hs, hc]
  | cons d ds => simp [stripTerminators, hs]

/-- Only what follows the last character that is no terminator can come off. -/
theorem stripTerminators_append_cons {c : Byte} (hc : isTerminator c = false) (pre rest : Line) :
    stripTerminators (pre ++ c :: rest) = pre ++ c :: stripTerminators rest := by
  induction pre with
  | nil => exact stripTerminators_cons (.inl hc)
  | cons p ps ih =>
    have hkept : stripTerminators (ps ++ c :: rest) ≠ [] := by simp [ih]
    rw [List.cons_append, stripTerminators_cons (.inr hkept), ih, List.cons_append]

theorem isTerminator_space : isTerminator space = false := by decide

theorem isTerminator_commentMarker : isTerminator commentMarker = false := by decide

/-! ## The tokenizer (`41_decoder.md` R77 to R79) -/

/-- Three fields with a space after each are cut as they stand, whatever follows the third space. -/
theorem cut3_append_spaces {f0 f1 f2 : Token} (h0 : space ∉ f0) (h1 : space ∉ f1) (h2 : space ∉ f2) (tail : Line) :
    cut3 (f0 ++ space :: (f1 ++ space :: (f2 ++ space :: tail))) = ⟨f0, f1, f2⟩ := by
  simp [cut3, nextField, cutField_append_space h0, cutField_append_space h1, cutField_append_space h2]

theorem head?_append_space_eq_commentMarker (f rest : Line) :
    (f ++ space :: rest).head? = some commentMarker ↔ f.head? = some commentMarker := by
  cases f with
  | nil => simp [space, commentMarker]
  | cons c cs => rfl

theorem hasOverlongField_iff {tokenMax : Nat} {d : Decoded} :
    hasOverlongField tokenMax d = true ↔
      tokenMax < d.opcode.length ∨ tokenMax < d.arg1.length ∨ tokenMax < d.arg2.length := by
  simp [hasOverlongField]

theorem decodeLine_of_comment (tokenMax : Nat) {line : Line} (h : (stripTerminators line).head? = some commentMarker) :
    decodeLine tokenMax line = .comment := by
  simp [decodeLine, h]

theorem decodeLine_of_not_comment (tokenMax : Nat) {line : Line} (h : (stripTerminators line).head? ≠ some commentMarker) :
    decodeLine tokenMax line =
      if hasOverlongField tokenMax (cut3 (stripTerminators line)) then .decodeFault
      else .decoded (cut3 (stripTerminators line)) := by
  simp [decodeLine, h]

/-- What follows the third space has no influence: the fields before it alone decide. -/
theorem decodeLine_append_spaces (tokenMax : Nat) {f0 f1 f2 : Token} (tail : Line)
    (h0 : space ∉ f0) (h1 : space ∉ f1) (h2 : space ∉ f2) :
    decodeLine tokenMax (f0 ++ space :: (f1 ++ space :: (f2 ++ space :: tail))) =
      if f0.head? = some commentMarker then .comment
      else if tokenMax < f0.length ∨ tokenMax < f1.length ∨ tokenMax < f2.length then .decodeFault
      else .decoded ⟨f0, f1, f2⟩ := by
  have hstrip : stripTerminators (f0 ++ space :: (f1 ++ space :: (f2 ++ space :: tail))) =
      f0 ++ space :: (f1 ++ space :: (f2 ++ space :: stripTerminators tail)) := by
    simp only [stripTerminators_append_cons isTerminator_space]
  by_cases hmark : f0.head? = some commentMarker
  · rw [if_pos hmark]
    apply decodeLine_of_comment
    rw [hstrip, head?_append_space_eq_commentMarker]
    exact hmark
  · rw [if_neg hmark, decodeLine_of_not_comment, hstrip, cut3_append_spaces h0 h1 h2]
    · simp only [hasOverlongField_iff]
    · rw [hstrip, Ne, head?_append_space_eq_commentMarker]
      exact hmark

theorem decodeLine_commentMarker_cons (tokenMax : Nat) (rest : Line) : decodeLine tokenMax (commentMarker :: rest) = .comment := by
  apply decodeLine_of_comment
  rw [stripTerminators_cons (.inl isTerminator_commentMarker), List.head?_cons]

/-! ## The opcode field -/

theorem mnemonic_injective : Function.Injective mnemonic := by
  intro o o' h
  have hsome : some o = some o' := by rw [← opcodeOf_mnemonic o, h, opcodeOf_mnemonic]
  exact Option.some.inj hsome

theorem instrOf_mnemonic (o : Opcode) (a1 a2 : Token) : instrOf ⟨mnemonic o, a1, a2⟩ = some (instrWith o a1 a2) := by
  simp [instrOf]

/-- The opcodes of format F2 (`30_encoding.md` R49). -/
def twoOperandOpcodes : List Opcode := [.set, .and, .or, .add, .sub, .shl, .shr]

theorem mem_twoOperandOpcodes {o : Opcode} : o ∈ twoOperandOpcodes ↔ o ≠ .nop ∧ ¬ (o = .jmp ∨ o = .prt) := by
  cases o <;> decide

end Sys2Proof

namespace Sys2Proof.Machine

/-! ## The validator, by the operands the opcode uses (`42_validator.md` R94 to R97) -/

theorem validate_nop (xlen : Nat) (a1 a2 : Token) : validate xlen ⟨mnemonic .nop, a1, a2⟩ = true := by
  simp [validate]

theorem validate_of_oneOperand (xlen : Nat) {o : Opcode} (ho : o = .jmp ∨ o = .prt) (a1 a2 : Token) :
    validate xlen ⟨mnemonic o, a1, a2⟩ = valid1 xlen a1 := by
  have hnop : o ≠ .nop := by rcases ho with rfl | rfl <;> decide
  simp [validate, hnop, ho]

theorem validate_of_twoOperand (xlen : Nat) {o : Opcode} (ho : o ∈ twoOperandOpcodes) (a1 a2 : Token) :
    validate xlen ⟨mnemonic o, a1, a2⟩ = (valid1 xlen a1 && valid2 xlen a2) := by
  obtain ⟨hnop, hone⟩ := mem_twoOperandOpcodes.1 ho
  cases h1 : valid1 xlen a1 <;> simp [validate, hnop, hone, h1]

theorem validate_of_unknownOpcode (xlen : Nat) {d : Decoded} (h : ∀ o, d.opcode ≠ mnemonic o) : validate xlen d = false := by
  have hnone : opcodeOf d.opcode = none := opcodeOf_eq_none.2 fun o => (h o).symm
  simp [validate, hnone]

/-! ## The ignored content (`30_encoding.md` R58) -/

/-- The engine reads a triple through the validator and the instruction it stands for, and through nothing else. -/
theorem runDecoded_congr {d d' : Decoded} {s : State} (hv : validate s.xlen d = validate s.xlen d') (hi : instrOf d = instrOf d') :
    runDecoded d s = runDecoded d' s := by
  unfold runDecoded
  rw [hv, hi]

theorem runDecoded_nop (a1 a2 : Token) (s : State) :
    runDecoded ⟨mnemonic .nop, a1, a2⟩ s = runDecoded ⟨mnemonic .nop, [], []⟩ s := by
  apply runDecoded_congr
  · rw [validate_nop, validate_nop]
  · rw [instrOf_mnemonic, instrOf_mnemonic]
    rfl

theorem runDecoded_of_oneOperand {o : Opcode} (ho : o = .jmp ∨ o = .prt) (a1 a2 : Token) (s : State) :
    runDecoded ⟨mnemonic o, a1, a2⟩ s = runDecoded ⟨mnemonic o, a1, []⟩ s := by
  apply runDecoded_congr
  · rw [validate_of_oneOperand _ ho, validate_of_oneOperand _ ho]
  · rw [instrOf_mnemonic, instrOf_mnemonic]
    rcases ho with rfl | rfl <;> rfl

/-- Settles O7: the third space ends what the tokenizer cuts, the marker ends what it reads, and the engine reads a triple only through the
validator and the instruction, which both drop the unused fields. -/
theorem ignoredContentIsNeverLookedAt : Obligations.IgnoredContentIsNeverLookedAt :=
  ⟨fun tokenMax _ _ _ tail h0 h1 h2 => decodeLine_append_spaces tokenMax tail h0 h1 h2,
    runDecoded_nop,
    runDecoded_of_oneOperand (.inl rfl),
    runDecoded_of_oneOperand (.inr rfl),
    decodeLine_commentMarker_cons⟩

/-! ## The table of illegal encodings (`30_encoding.md` R55) -/

/-- The table's test on an operand with least literal `low`: neither a register name nor a literal in `[low, 2 ^ XLEN)`. -/
def RejectedOperand (xlen : Nat) (t : Token) (low : Int) : Prop :=
  (∀ r, t ≠ regName r) ∧ ¬ (low ≤ sval t ∧ sval t < ((2 ^ xlen : Nat) : Int))

/-- The rows of the table that are validation faults: the opcode, arg1 and arg2 of a triple. -/
def IllegalTriple (xlen : Nat) (d : Decoded) : Prop :=
  (∀ o, d.opcode ≠ mnemonic o) ∨
  (d.opcode ≠ mnemonic .nop ∧ RejectedOperand xlen d.arg1 1) ∨
  (d.opcode ∈ twoOperandOpcodes.map mnemonic ∧ RejectedOperand xlen d.arg2 0)

theorem isReg_eq_false_iff {t : Token} : isReg t = false ↔ ∀ r, t ≠ regName r := by
  rw [isReg, Option.isSome_eq_false_iff, Option.isNone_iff_eq_none, regOf_eq_none]
  exact forall_congr' fun _ => ne_comm

/-- The validator's inclusive upper bound `2 ^ XLEN - 1` is the table's exclusive bound `2 ^ XLEN`. -/
theorem operandTest_eq_false_iff (xlen : Nat) (t : Token) (low : Int) :
    (isReg t || (decide (low ≤ sval t) && decide (sval t ≤ ((2 ^ xlen - 1 : Nat) : Int)))) = false ↔
      RejectedOperand xlen t low := by
  have hbound : sval t ≤ ((2 ^ xlen - 1 : Nat) : Int) ↔ sval t < ((2 ^ xlen : Nat) : Int) := by
    have hpos : 0 < 2 ^ xlen := Nat.two_pow_pos xlen
    omega
  rw [RejectedOperand, ← isReg_eq_false_iff, ← hbound]
  simp

theorem valid1_eq_false_iff {xlen : Nat} {t : Token} : valid1 xlen t = false ↔ RejectedOperand xlen t 1 :=
  operandTest_eq_false_iff xlen t 1

theorem valid2_eq_false_iff {xlen : Nat} {t : Token} : valid2 xlen t = false ↔ RejectedOperand xlen t 0 :=
  operandTest_eq_false_iff xlen t 0

/-- The table on a triple whose opcode field is a mnemonic, said of the opcode. -/
theorem illegalTriple_mnemonic_iff {xlen : Nat} {o : Opcode} {a1 a2 : Token} :
    IllegalTriple xlen ⟨mnemonic o, a1, a2⟩ ↔
      (o ≠ .nop ∧ RejectedOperand xlen a1 1) ∨ (o ∈ twoOperandOpcodes ∧ RejectedOperand xlen a2 0) := by
  have hknown : ¬ ∀ p, o ≠ p := fun h => h o rfl
  simp only [IllegalTriple, hknown, false_or, mnemonic_injective.ne_iff, List.mem_map_of_injective mnemonic_injective]

/-- The validator rejects exactly the triples the table calls illegal. -/
theorem validate_eq_false_iff {xlen : Nat} {d : Decoded} : validate xlen d = false ↔ IllegalTriple xlen d := by
  obtain ⟨op, a1, a2⟩ := d
  by_cases hknown : ∃ o, op = mnemonic o
  · obtain ⟨o, rfl⟩ := hknown
    rw [illegalTriple_mnemonic_iff]
    by_cases htwo : o ∈ twoOperandOpcodes
    · obtain ⟨hnop, -⟩ := mem_twoOperandOpcodes.1 htwo
      rw [validate_of_twoOperand xlen htwo, Bool.and_eq_false_iff, valid1_eq_false_iff, valid2_eq_false_iff]
      simp [htwo, hnop]
    · by_cases hnop : o = .nop
      · simp [hnop, validate_nop, mem_twoOperandOpcodes]
      · have hone : o = .jmp ∨ o = .prt := by
          by_contra hone
          exact htwo (mem_twoOperandOpcodes.2 ⟨hnop, hone⟩)
        simp [validate_of_oneOperand xlen hone, valid1_eq_false_iff, htwo, hnop]
  · have hunknown : ∀ o, op ≠ mnemonic o := fun o ho => hknown ⟨o, ho⟩
    exact iff_of_true (validate_of_unknownOpcode xlen hunknown) (.inl hunknown)

/-! ## The step on a line that is no comment (`45_engine.md` R137) -/

/-- Everything a step in `Running` can do on a line that is no comment, by the length check and the validator on its fields. -/
theorem step_on_fields_cases {s : State} {line : Line} {d : Decoded} (hs : s.status = .running) (hf : s.fetch s.pc = some line)
    (hc : (stripTerminators line).head? ≠ some commentMarker) (hd : d = cut3 (stripTerminators line)) :
    (hasOverlongField s.inputs.cfg.tokenMax d = true ∧ step s = .next (s.raise .decodeFault)) ∨
    (hasOverlongField s.inputs.cfg.tokenMax d = false ∧ validate s.xlen d = false ∧ step s = .next (s.raise .validationFault)) ∨
    (hasOverlongField s.inputs.cfg.tokenMax d = false ∧ validate s.xlen d = true ∧
      ∃ i u, instrOf d = some i ∧ exec i s = .next u ∧ step s = .next (completeStep u)) := by
  have hstep : step s = runLine line s := by simp [step_of_running hs, runStep, hf]
  have hdec := decodeLine_of_not_comment s.inputs.cfg.tokenMax hc
  rw [← hd] at hdec
  rw [hstep, runLine, hdec]
  cases hlong : hasOverlongField s.inputs.cfg.tokenMax d with
  | true => exact .inl ⟨rfl, rfl⟩
  | false =>
    right
    cases hv : validate s.xlen d with
    | false => exact .inl ⟨rfl, rfl, by simp [runDecoded, hv]⟩
    | true =>
      obtain ⟨i, hi⟩ := instrOf_of_validate hv
      obtain ⟨u, hu⟩ := exec_next i s
      exact .inr ⟨rfl, rfl, i, u, hi, hu, by simp [runDecoded, hv, hi, hu, afterDispatch]⟩

/-- The end of a step raises no fault but `RunawayFault`. -/
theorem fault_completeStep (s : State) : (completeStep s).fault = .runawayFault ∨ (completeStep s).fault = s.fault := by
  rcases completeStep_cases s with ⟨_, h⟩ | ⟨_, _, h⟩ | ⟨_, _, h⟩ <;> simp [h]

/-- An instruction that completes ends its step with no fault of the table. -/
theorem fault_completeStep_of_exec {i : Instr} {s u : State} (hnone : s.fault = .none) (hu : exec i s = .next u) :
    (completeStep u).fault ≠ .decodeFault ∧ (completeStep u).fault ≠ .validationFault := by
  obtain ⟨-, -, -, -, hfault⟩ := exec_engineCells hu
  rcases fault_completeStep u with h | h
  · simp [h]
  · simp [h, hfault, hnone]

/-- Settles O14: the step's three cases are the three answers of the table, which the length check and the validator decide. -/
theorem illegalLinesAreExactlyTheTable : Obligations.IllegalLinesAreExactlyTheTable := by
  intro s line d hs hnone hf hc hd tooLong badOperand illegal
  have hlong : hasOverlongField s.inputs.cfg.tokenMax d = true ↔ tooLong := hasOverlongField_iff
  have hillegal : validate s.xlen d = false ↔ illegal := validate_eq_false_iff
  clear_value illegal tooLong
  rcases step_on_fields_cases hs hf hc hd with ⟨hl, ht⟩ | ⟨hl, hv, ht⟩ | ⟨hl, hv, i, u, hi, hu, ht⟩
  · have hyes : tooLong := hlong.1 hl
    exact ⟨_, ht, by simp [hyes], by simp [hyes], fun h => absurd hyes h.1⟩
  · have hno : ¬ tooLong := by simp [← hlong, hl]
    have hbad : illegal := hillegal.1 hv
    exact ⟨_, ht, by simp [hno], by simp [hno, hbad], fun h => absurd hbad h.2⟩
  · have hno : ¬ tooLong := by simp [← hlong, hl]
    have hlegal : ¬ illegal := by simp [← hillegal, hv]
    obtain ⟨hnotDecode, hnotValidation⟩ := fault_completeStep_of_exec hnone hu
    exact ⟨_, ht, by simp [hno, hnotDecode], by simp [hlegal, hnotValidation], fun _ => ⟨i, u, hi, hu, rfl⟩⟩

end Sys2Proof.Machine


/-! PROOFS. The operand resolver (`40_operand_resolver.md` R66): the operand a token is read as, the two readings of a literal, and what each
operand resolves to. -/

namespace Sys2Proof

/-! ## The operand a token is (`40_operand_resolver.md` R65) -/

@[simp] theorem operandOf_regName (r : Reg) : operandOf (regName r) = .reg r := by simp [operandOf]

theorem operandOf_of_not_regName {t : Token} (h : ∀ r, t ≠ regName r) : operandOf t = .lit (sval t) := by
  have hnone : regOf t = none := regOf_eq_none.2 fun r => (h r).symm
  simp [operandOf, hnone]

/-! ## The literal value and the signed reading (`30_encoding.md` R52, `42_validator.md` R92) -/

theorem isDigit_minus : isDigit minus = false := by decide

@[simp] theorem litval_nil : litval [] = 0 := rfl

/-- Without a digit in front the leading digit run is empty. -/
theorem litval_cons_of_not_digit {c : Byte} (hc : isDigit c = false) (cs : Token) : litval (c :: cs) = 0 := by
  have hrun : digits (c :: cs) = [] := List.takeWhile_cons_of_neg (by simp [hc])
  rw [litval, hrun]
  rfl

/-- A token that starts with no digit reads as zero (`30_encoding.md` R52). -/
theorem litval_of_no_leading_digit {t : Token} (h : ∀ c, t.head? = some c → isDigit c = false) : litval t = 0 := by
  cases t with
  | nil => exact litval_nil
  | cons c cs => exact litval_cons_of_not_digit (h c rfl) cs

/-- The resolver's reading is the validator's with the negative values cut to zero: a minus sign is no digit, so the token it starts has
literal value 0. -/
theorem toNat_sval (t : Token) : (sval t).toNat = litval t := by
  cases t with
  | nil => rfl
  | cons c cs =>
    by_cases hc : c = minus
    · subst hc
      rw [litval_cons_of_not_digit isDigit_minus, sval, if_pos rfl]
      exact Int.toNat_neg_natCast (litval cs)
    · rw [sval, if_neg hc]
      exact Int.toNat_natCast (litval (c :: cs))

end Sys2Proof

namespace Sys2Proof.Machine

/-! ## Resolution (`40_operand_resolver.md` R66) -/

@[simp] theorem resolve_reg (s : State) (r : Reg) : resolve s (.reg r) = s.readReg r := rfl

@[simp] theorem resolve_lit (s : State) (v : Int) : resolve s (.lit v) = v.toNat % 2 ^ s.xlen := rfl

/-- A token that names no register resolves to its literal value, reduced to the width of a register. -/
theorem resolve_operandOf_of_not_regName (s : State) {t : Token} (h : ∀ r, t ≠ regName r) :
    resolve s (operandOf t) = litval t % 2 ^ s.xlen := by
  rw [operandOf_of_not_regName h, resolve_lit, toNat_sval]

/-- Settles O9: a register name is read as that register; every other token is read as its signed value, whose part above zero is the literal
value, and that is 0 without a leading digit. -/
theorem resolveReadsRegisterOrLiteral : Obligations.ResolveReadsRegisterOrLiteral := by
  refine ⟨fun s r => ?register, fun s _ hreg => resolve_operandOf_of_not_regName s hreg, fun s t hreg hdigit => ?zero⟩
  case register => rw [operandOf_regName, resolve_reg]
  case zero => rw [resolve_operandOf_of_not_regName s hreg, litval_of_no_leading_digit hdigit, Nat.zero_mod]

end Sys2Proof.Machine


/-! PROOFS. The operands the validator leaves unexamined (`42_validator.md` R96, R97). -/

namespace Sys2Proof.Machine

/-- Settles O11: the validator's first test answers for `NOP` before an operand is read. -/
theorem nopAlwaysValidates : Obligations.NopAlwaysValidates := validate_nop

/-- Settles O12: both are opcodes of one operand, whose check is that of arg1 alone. -/
theorem jmpAndPrtCheckOnlyTheFirstOperand : Obligations.JmpAndPrtCheckOnlyTheFirstOperand := fun xlen a1 a2 =>
  ⟨validate_of_oneOperand xlen (.inl rfl) a1 a2, validate_of_oneOperand xlen (.inr rfl) a1 a2⟩

end Sys2Proof.Machine


/-! PROOFS. `NOP` and the data instructions `SET`, `AND`, `OR`, `ADD` and `SUB` (`43_data_ops.md` R106 to R111): each handler's equation, what `SUB`
computes, and the engine's step on a line that takes effect and on one whose field is too long. -/

namespace Sys2Proof

/-! ## From a line to an instruction (`41_decoder.md` R75, `30_encoding.md` R49) -/

/-- The instruction made of an opcode has that opcode. -/
theorem opcode_instrWith (o : Opcode) (a1 a2 : Token) : (instrWith o a1 a2).opcode = o := by
  cases o <;> rfl

/-- A triple stands for an instruction only under that instruction's mnemonic. -/
theorem opcode_of_instrOf {d : Decoded} {i : Instr} (h : instrOf d = some i) : d.opcode = mnemonic i.opcode := by
  unfold instrOf at h
  cases ho : opcodeOf d.opcode with
  | none => simp [ho] at h
  | some o =>
    rw [ho] at h
    cases h
    rw [opcode_instrWith]
    exact opcodeOf_eq_some.1 ho

/-- A line decodes to an instruction exactly when the tokenizer's triple stands for it. -/
theorem decode_eq_instr_iff {tokenMax : Nat} {line : Line} {i : Instr} :
    decode tokenMax line = .instr i ↔ ∃ d, decodeLine tokenMax line = .decoded d ∧ instrOf d = some i := by
  unfold decode
  cases hd : decodeLine tokenMax line with
  | comment => simp
  | decodeFault => simp
  | decoded d => cases hi : instrOf d <;> simp [hi]

/-- No mnemonic begins with the comment marker, so a line with a mnemonic as its first field is no comment. -/
theorem not_comment_of_mnemonic {s : Line} {o : Opcode} (h : (cut3 s).opcode = mnemonic o) : s.head? ≠ some commentMarker := by
  intro hmark
  obtain ⟨cs, rfl⟩ := List.head?_eq_some_iff.1 hmark
  have hfirst : (cut3 (commentMarker :: cs)).opcode.head? = some commentMarker := rfl
  have hother : (mnemonic o).head? ≠ some commentMarker := by cases o <;> decide
  exact hother (h ▸ hfirst)

end Sys2Proof

namespace Sys2Proof.Machine

/-! ## Dispatch (`43_data_ops.md` R106 to R111) -/

theorem exec_nop (s : State) : exec .nop s = .next s.advancePc := rfl
theorem exec_set (dst src : Operand) (s : State) : exec (.set dst src) s = .next (dataOp aluSet dst src s) := rfl
theorem exec_and (dst src : Operand) (s : State) : exec (.and dst src) s = .next (dataOp aluAnd dst src s) := rfl
theorem exec_or (dst src : Operand) (s : State) : exec (.or dst src) s = .next (dataOp aluOr dst src s) := rfl
theorem exec_add (dst src : Operand) (s : State) : exec (.add dst src) s = .next (dataOp (aluAdd s.xlen) dst src s) := rfl
theorem exec_sub (dst src : Operand) (s : State) : exec (.sub dst src) s = .next (dataOp (aluSub s.xlen) dst src s) := rfl

/-- An instruction dispatched to the shared frame completes with the frame's effect. -/
theorem exec_dataEffect {i : Instr} {f : Nat → Nat → Nat} {dst src : Operand} {s : State}
    (h : exec i s = .next (dataOp f dst src s)) : ∃ t, exec i s = .next t ∧ DataEffect f dst src s t :=
  ⟨dataOp f dst src s, h, dataOp_effect f dst src s⟩

/-! ## Subtraction (`43_data_ops.md` R111) -/

/-- The result of `SUB`, read as an integer, is the non-negative remainder of the exact difference. -/
theorem natCast_aluSub (xlen x v : Nat) : (aluSub xlen x v : Int) = ((x : Int) - (v : Int)) % ((2 ^ xlen : Nat) : Int) := by
  have hpos : 0 < 2 ^ xlen := Nat.two_pow_pos xlen
  exact Int.toNat_of_nonneg (Int.emod_nonneg _ (by omega))

theorem aluSub_lt (xlen x v : Nat) : aluSub xlen x v < 2 ^ xlen := by
  have hpos : 0 < 2 ^ xlen := Nat.two_pow_pos xlen
  have hlt : (aluSub xlen x v : Int) < ((2 ^ xlen : Nat) : Int) := by
    rw [natCast_aluSub]
    exact Int.emod_lt_of_pos _ (by omega)
  exact Int.ofNat_lt.1 hlt

/-- The exact difference is the result of `SUB` plus a multiple of `2 ^ XLEN`, namely the rounded-down quotient. -/
theorem sub_eq_aluSub_add (xlen x v : Nat) :
    (x : Int) - (v : Int) = (aluSub xlen x v : Int) + ((x : Int) - (v : Int)) / ((2 ^ xlen : Nat) : Int) * ((2 ^ xlen : Nat) : Int) := by
  rw [natCast_aluSub, Int.emod_add_ediv_mul]

/-! ## The step in `Running` (`45_engine.md` R137) -/

/-- What takes effect is followed by the end of the step. -/
theorem step_of_completesWith {s u : State} (hs : s.status = .running) (h : CompletesWith s u) : step s = .next (completeStep u) := by
  rw [step_of_running hs]
  obtain ⟨line, hf, ⟨hd, rfl⟩ | ⟨d, i, hd, hv, hi, hu⟩⟩ := h
  · simp [runStep, hf, runLine, hd]
  · simp [runStep, hf, runLine, hd, runDecoded, hv, hi, hu, afterDispatch]

/-- A step past the ceiling ends in `RunawayFault` (`45_engine.md` R141). -/
theorem fault_completeStep_of_ceiling_lt {s : State} (h : s.inputs.cfg.ceiling < s.count + 1) :
    (completeStep s).fault = .runawayFault := by
  rcases completeStep_cases s with ⟨_, heq⟩ | ⟨hle, _, _⟩ | ⟨hle, _, _⟩
  · rw [heq, fault_raise]
  · omega
  · omega

/-- A line read as `NOP` takes effect, whatever its operand fields hold: they are not validated. -/
theorem completesWith_of_nop {s : State} {line : Line} (hf : s.fetch s.pc = some line)
    (hdec : decode s.inputs.cfg.tokenMax line = .instr .nop) : CompletesWith s s.advancePc := by
  obtain ⟨d, hd, hi⟩ := decode_eq_instr_iff.1 hdec
  obtain ⟨op, a1, a2⟩ := d
  have hop : op = mnemonic .nop := opcode_of_instrOf hi
  subst hop
  exact ⟨line, hf, .inr ⟨_, .nop, hd, validate_nop s.xlen a1 a2, hi, exec_nop s⟩⟩

/-- A line that is no comment faults on an over-long field before its opcode is looked up (`41_decoder.md` R79). -/
theorem step_of_overlongField {s : State} {line : Line} (hs : s.status = .running) (hf : s.fetch s.pc = some line)
    (hc : (stripTerminators line).head? ≠ some commentMarker)
    (hlong : hasOverlongField s.inputs.cfg.tokenMax (cut3 (stripTerminators line)) = true) :
    step s = .next (s.raise .decodeFault) := by
  rcases step_on_fields_cases hs hf hc rfl with ⟨_, ht⟩ | ⟨hshort, _⟩ | ⟨hshort, _⟩
  · exact ht
  · simp [hlong] at hshort
  · simp [hlong] at hshort

/-! ## The instructions -/

/-- Settles O15: the handler is the increment of `pc` alone, the validator passes every `NOP`, and the length check stands before both. -/
theorem nopOnlyAdvances : Obligations.NopOnlyAdvances := by
  refine ⟨instrOf_mnemonic .nop, fun s => ?effect, fun s line hs hf hdec => ?counted, fun s line hs hf hop hlong => ?overlong⟩
  case effect => exact ⟨s.advancePc, exec_nop s, pc_advancePc s, readReg_advancePc s, out_advancePc s, exec_engineCells (exec_nop s)⟩
  case counted =>
    refine ⟨completeStep s.advancePc, step_of_completesWith hs (completesWith_of_nop hf hdec), ?_, fun hceiling => ?_⟩
    · rw [count_completeStep, count_advancePc]
    · apply fault_completeStep_of_ceiling_lt
      rw [inputs_advancePc, count_advancePc]
      omega
  case overlong =>
    exact ⟨s.raise .decodeFault, step_of_overlongField hs hf (not_comment_of_mnemonic hop) hlong, fault_raise s .decodeFault⟩

/-- Settles O20: the function is `aluSub`, in range and congruent to destination minus source. -/
theorem subWrapsAround : Obligations.SubWrapsAround := by
  refine ⟨instrOf_mnemonic .sub, fun dst src s => ?_⟩
  obtain ⟨t, ht, heffect⟩ := exec_dataEffect (exec_sub dst src s)
  exact ⟨t, aluSub s.xlen, ht, heffect, fun x v => ⟨aluSub_lt s.xlen x v, _, sub_eq_aluSub_add s.xlen x v⟩⟩

/-- Settles O16: `SET` runs the data frame with the source itself as the result. -/
theorem setCopiesTheSource : Obligations.SetCopiesTheSource :=
  ⟨instrOf_mnemonic .set, fun dst src s => exec_dataEffect (exec_set dst src s)⟩

/-- Settles O17: `AND` runs the data frame with the bitwise AND. -/
theorem andIsBitwise : Obligations.AndIsBitwise :=
  ⟨instrOf_mnemonic .and, fun dst src s => exec_dataEffect (exec_and dst src s)⟩

/-- Settles O18: `OR` runs the data frame with the bitwise OR. -/
theorem orIsBitwise : Obligations.OrIsBitwise :=
  ⟨instrOf_mnemonic .or, fun dst src s => exec_dataEffect (exec_or dst src s)⟩

/-- Settles O19: `ADD` runs the data frame with the exact sum, reduced modulo `2 ^ XLEN`. -/
theorem addWrapsAround : Obligations.AddWrapsAround :=
  ⟨instrOf_mnemonic .add, fun dst src s => exec_dataEffect (exec_add dst src s)⟩

end Sys2Proof.Machine


/-! PROOFS. The transition table of the engine (`45_engine.md` R142): the three answers of Start, the three ends of a step, the two faults a
line raises before it takes effect, and the rows as these equations. -/

namespace Sys2Proof.Machine

/-! ## Start, one equation per test (`45_engine.md` R136) -/

theorem start_of_loadOk_false {s : State} (hload : s.inputs.loadOk = false) : start s = s.raise .loadFault := by
  simp [start, hload]

theorem start_of_progLen_le {s : State} (hload : s.inputs.loadOk = true) (hpc : s.progLen ≤ s.pc) :
    start s = s.setStatus .haltedSuccess := by
  simp [start, hload, hpc]

theorem start_of_pc_lt {s : State} (hload : s.inputs.loadOk = true) (hpc : s.pc < s.progLen) :
    start s = s.setStatus .running := by
  simp [start, hload, Nat.not_le_of_lt hpc]

/-! ## The end of a step, one equation per test (`45_engine.md` R137) -/

theorem completeStep_of_ceiling_lt {s : State} (hceiling : s.inputs.cfg.ceiling < s.count + 1) :
    completeStep s = s.countStep.raise .runawayFault := by
  simp [completeStep, hceiling]

theorem completeStep_of_progLen_le {s : State} (hceiling : s.count + 1 ≤ s.inputs.cfg.ceiling) (hpc : s.progLen ≤ s.pc) :
    completeStep s = s.countStep.setStatus .haltedSuccess := by
  simp [completeStep, Nat.not_lt_of_le hceiling, hpc]

theorem completeStep_of_pc_lt {s : State} (hceiling : s.count + 1 ≤ s.inputs.cfg.ceiling) (hpc : s.pc < s.progLen) :
    completeStep s = s.countStep := by
  simp [completeStep, Nat.not_lt_of_le hceiling, Nat.not_le_of_lt hpc]

/-! ## The faults raised before a line takes effect (`45_engine.md` R139) -/

theorem step_of_decodeFault {s : State} {line : Line} (hs : s.status = .running) (hf : s.fetch s.pc = some line)
    (hd : decodeLine s.inputs.cfg.tokenMax line = .decodeFault) : step s = .next (s.raise .decodeFault) := by
  simp [step_of_running hs, runStep, hf, runLine, hd]

theorem step_of_validate_false {s : State} {line : Line} {d : Decoded} (hs : s.status = .running)
    (hf : s.fetch s.pc = some line) (hd : decodeLine s.inputs.cfg.tokenMax line = .decoded d) (hv : validate s.xlen d = false) :
    step s = .next (s.raise .validationFault) := by
  simp [step_of_running hs, runStep, hf, runLine, hd, runDecoded, hv]

/-! ## The rows that complete a step

No effect of a line writes `COUNT`, `STATE` or the inputs, so the tests after it may be read in the state before it. -/

theorem countStep_of_completesWith {s u : State} (h : CompletesWith s u) : u.countStep = { u with count := s.count + 1 } := by
  obtain ⟨-, -, hcount, -, -⟩ := completesWith_engineCells h
  rw [State.countStep, hcount]

theorem step_of_completesWith_of_ceiling_lt {s u : State} (hs : s.status = .running) (h : CompletesWith s u)
    (hceiling : s.inputs.cfg.ceiling < s.count + 1) :
    step s = .next { u with count := s.count + 1, status := .haltedError, fault := .runawayFault } := by
  obtain ⟨hinputs, -, hcount, -, -⟩ := completesWith_engineCells h
  rw [← hinputs, ← hcount] at hceiling
  rw [step_of_completesWith hs h, completeStep_of_ceiling_lt hceiling, countStep_of_completesWith h, State.raise]

theorem step_of_completesWith_of_progLen_le {s u : State} (hs : s.status = .running) (h : CompletesWith s u)
    (hceiling : s.count + 1 ≤ s.inputs.cfg.ceiling) (hpc : s.progLen ≤ u.pc) :
    step s = .next { u with count := s.count + 1, status := .haltedSuccess } := by
  obtain ⟨hinputs, -, hcount, -, -⟩ := completesWith_engineCells h
  rw [← hinputs, ← hcount] at hceiling
  rw [← progLen_of_inputs hinputs] at hpc
  rw [step_of_completesWith hs h, completeStep_of_progLen_le hceiling hpc, countStep_of_completesWith h, State.setStatus]

theorem step_of_completesWith_of_pc_lt {s u : State} (hs : s.status = .running) (h : CompletesWith s u)
    (hceiling : s.count + 1 ≤ s.inputs.cfg.ceiling) (hpc : u.pc < s.progLen) :
    step s = .next { u with count := s.count + 1, status := .running } := by
  obtain ⟨hinputs, -, hcount, hstatus, -⟩ := completesWith_engineCells h
  rw [← hinputs, ← hcount] at hceiling
  rw [← progLen_of_inputs hinputs] at hpc
  rw [step_of_completesWith hs h, completeStep_of_pc_lt hceiling hpc, countStep_of_completesWith h, ← hs, ← hstatus]

/-! ## The table (`45_engine.md` R142) -/

/-- Settles O36: each row is the equation of the one branch of Start, of the step or of its end that the row's event selects. -/
theorem stepFollowsTheTransitionTable : Obligations.StepFollowsTheTransitionTable := by
  refine ⟨fun s hs hload => ?loadFault, fun s hs hload hempty => ?emptyProgram, fun s hs hzero hload hsome => ?started,
    fun _ _ => step_of_decodeFault, fun _ _ _ => step_of_validate_false, fun _ _ => step_of_completesWith_of_ceiling_lt,
    fun _ _ => step_of_completesWith_of_progLen_le, fun _ _ => step_of_completesWith_of_pc_lt, fun s hhalted => ?halted⟩
  case loadFault => rw [step_of_ready hs, start_of_loadOk_false hload, State.raise]
  case emptyProgram =>
    have hpc : s.progLen ≤ s.pc := by omega
    rw [step_of_ready hs, start_of_progLen_le hload hpc, State.setStatus]
  case started =>
    have hpc : s.pc < s.progLen := by omega
    rw [step_of_ready hs, start_of_pc_lt hload hpc, State.setStatus]
  case halted =>
    rcases hhalted with hs | hs
    · exact step_of_haltedSuccess hs
    · exact step_of_haltedError hs

end Sys2Proof.Machine


/-! PROOFS. The faults (`60_exceptions.md` R161, R162): everything a step that raises a fault can have done, and the three verdicts on a line with
the one fault, if any, that each leads to. -/

namespace Sys2Proof.Machine

/-! ## What a fault leaves behind (`60_exceptions.md` R161) -/

/-- A state that is `s` but for a fault raised before anything took effect, or that has the whole effect of the line at `pc` and its count. -/
def PreciseFault (s t : State) : Prop :=
  (∃ f, f ≠ .runawayFault ∧ t = s.raise f) ∨
  (∃ u, CompletesWith s u ∧ t = { u with count := s.count + 1, fault := .runawayFault, status := .haltedError })

theorem preciseFault_raise {s : State} {f : FaultKind} (hf : f ≠ .runawayFault) : PreciseFault s (s.raise f) := .inl ⟨f, hf, rfl⟩

theorem preciseFault_start {s : State} (hnone : s.fault = .none) (hraised : (start s).fault ≠ .none) : PreciseFault s (start s) := by
  rcases start_cases s with ⟨_, h⟩ | ⟨_, _, h⟩ | ⟨_, _, h⟩
  · rw [h]
    exact preciseFault_raise (by decide)
  · exact absurd (by rw [h, fault_setStatus, hnone]) hraised
  · exact absurd (by rw [h, fault_setStatus, hnone]) hraised

/-- The ceiling test is the one test at the end of a step that raises a fault (`45_engine.md` R141). -/
theorem fault_completeStep_eq (s : State) :
    (completeStep s).fault = if s.inputs.cfg.ceiling < s.count + 1 then .runawayFault else s.fault := by
  split
  case isTrue hpassed => exact fault_completeStep_of_ceiling_lt hpassed
  case isFalse hwithin =>
    rcases completeStep_cases s with ⟨hpassed, _⟩ | ⟨_, _, h⟩ | ⟨_, _, h⟩
    · exact absurd hpassed hwithin
    · rw [h, fault_setStatus, fault_countStep]
    · rw [h, fault_countStep]

/-- The same test, read in the state before the line took effect. -/
theorem fault_completeStep_of_completesWith {s u : State} (h : CompletesWith s u) :
    (completeStep u).fault = if s.inputs.cfg.ceiling < s.count + 1 then .runawayFault else s.fault := by
  obtain ⟨hinputs, -, hcount, -, hfault⟩ := completesWith_engineCells h
  rw [fault_completeStep_eq, hinputs, hcount, hfault]

theorem preciseFault_completeStep {s u : State} (hnone : s.fault = .none) (h : CompletesWith s u)
    (hraised : (completeStep u).fault ≠ .none) : PreciseFault s (completeStep u) := by
  obtain ⟨hinputs, -, hcount, -, -⟩ := completesWith_engineCells h
  have hceiling : s.inputs.cfg.ceiling < s.count + 1 := by
    by_contra hwithin
    exact hraised (by rw [fault_completeStep_of_completesWith h, if_neg hwithin, hnone])
  rw [← hinputs, ← hcount] at hceiling
  refine .inr ⟨u, h, ?_⟩
  rw [completeStep_of_ceiling_lt hceiling, countStep_of_completesWith h, State.raise]

/-- Everything a step that raises a fault can have done. -/
theorem step_preciseFault {s t : State} (hnone : s.fault = .none) (h : step s = .next t) (hraised : t.fault ≠ .none) :
    PreciseFault s t := by
  cases hs : s.status with
  | ready =>
    rw [step_of_ready hs] at h
    cases h
    exact preciseFault_start hnone hraised
  | running =>
    rw [step_of_running hs] at h
    rcases runStep_cases s with ⟨_, hr⟩ | ⟨_, _, _, hr⟩ | ⟨_, _, _, _, _, hr⟩ | ⟨u, hu, hr⟩ <;> rw [hr] at h <;> cases h
    · exact preciseFault_raise (by decide)
    · exact preciseFault_raise (by decide)
    · exact preciseFault_completeStep hnone hu hraised
  | haltedSuccess =>
    rw [step_of_haltedSuccess hs] at h
    cases h
    exact absurd hnone hraised
  | haltedError =>
    rw [step_of_haltedError hs] at h
    cases h
    exact absurd hnone hraised

/-- Settles O37: a step that raises a fault either raised it on the state as it was, and then it is not `RunawayFault`, or raised `RunawayFault` on
the line's whole effect and its count. -/
theorem faultsArePreciseAndSaveNothing : Obligations.FaultsArePreciseAndSaveNothing := by
  refine ⟨fun _ _ => rfl, fun s t hnone hstep hraised => ?_⟩
  rcases step_preciseFault hnone hstep hraised with ⟨f, hearly, rfl⟩ | ⟨u, hu, rfl⟩
  · exact ⟨status_raise s f, fun _ => rfl, fun hlate => absurd hlate hearly⟩
  · exact ⟨rfl, fun hearly => absurd rfl hearly, fun _ => ⟨u, hu, rfl⟩⟩

/-! ## The order of the faults (`60_exceptions.md` R162) -/

/-- The line is a comment, or a triple the validator passes: it takes effect. -/
def LinePasses (s : State) (line : Line) : Prop :=
  decodeLine s.inputs.cfg.tokenMax line = .comment ∨
    ∃ d, decodeLine s.inputs.cfg.tokenMax line = .decoded d ∧ validate s.xlen d = true

/-- The three verdicts on a line, in the order of their tests. -/
theorem line_verdict_cases (s : State) (line : Line) :
    decodeLine s.inputs.cfg.tokenMax line = .decodeFault ∨
    (∃ d, decodeLine s.inputs.cfg.tokenMax line = .decoded d ∧ validate s.xlen d = false) ∨
    LinePasses s line := by
  unfold LinePasses
  cases hd : decodeLine s.inputs.cfg.tokenMax line with
  | decodeFault => exact .inl rfl
  | comment => exact .inr (.inr (.inl rfl))
  | decoded d =>
    cases hv : validate s.xlen d with
    | false => exact .inr (.inl ⟨d, rfl, hv⟩)
    | true => exact .inr (.inr (.inr ⟨d, rfl, hv⟩))

theorem LinePasses.not_decodeFault {s : State} {line : Line} (h : LinePasses s line) :
    decodeLine s.inputs.cfg.tokenMax line ≠ .decodeFault := by
  rcases h with hd | ⟨d, hd, _⟩ <;> simp [hd]

theorem LinePasses.validate_of_decoded {s : State} {line : Line} {d : Decoded} (h : LinePasses s line)
    (hd : decodeLine s.inputs.cfg.tokenMax line = .decoded d) : validate s.xlen d = true := by
  rcases h with hc | ⟨e, he, hv⟩
  · simp [hc] at hd
  · rw [he] at hd
    cases hd
    exact hv

theorem LinePasses.completesWith {s : State} {line : Line} (h : LinePasses s line) (hf : s.fetch s.pc = some line) :
    ∃ u, CompletesWith s u := by
  rcases h with hc | ⟨d, hd, hv⟩
  · exact ⟨s.advancePc, line, hf, .inl ⟨hc, rfl⟩⟩
  · obtain ⟨i, hi⟩ := instrOf_of_validate hv
    obtain ⟨u, hu⟩ := exec_next i s
    exact ⟨u, line, hf, .inr ⟨d, i, hd, hv, hi, hu⟩⟩

/-- Success is tested after the ceiling: a step that ends in it raised nothing (`45_engine.md` R137). -/
theorem fault_completeStep_of_haltedSuccess {s : State} (h : (completeStep s).status = .haltedSuccess) :
    (completeStep s).fault = s.fault := by
  rcases completeStep_cases s with ⟨_, hc⟩ | ⟨_, _, hc⟩ | ⟨_, _, hc⟩
  · simp [hc] at h
  · rw [hc, fault_setStatus, fault_countStep]
  · rw [hc, fault_countStep]

/-- Settles O38: Start tests the load first; in a step each of the three verdicts excludes the other two and has one next state, and the ceiling
is tested in the last alone, before success. -/
theorem faultsHaveAFixedPriority : Obligations.FaultsHaveAFixedPriority := by
  refine ⟨fun s hs hload => ?load, fun s line hs hnone hf => ?line, fun s t hs hstep => ?halted⟩
  case load => exact ⟨s.raise .loadFault, by rw [step_of_ready hs, start_of_loadOk_false hload], fault_raise s .loadFault⟩
  case line =>
    rcases line_verdict_cases s line with hd | ⟨d, hd, hv⟩ | hpasses
    · refine ⟨s.raise .decodeFault, step_of_decodeFault hs hf hd, fun _ => fault_raise s .decodeFault, fun d hdecoded => ?_,
        fun (hpasses : LinePasses s line) => absurd hd hpasses.not_decodeFault, fun hsuccess => ?_⟩
      · simp [hd] at hdecoded
      · simp at hsuccess
    · refine ⟨s.raise .validationFault, step_of_validate_false hs hf hd hv, fun hdecode => ?_,
        fun _ _ _ => fault_raise s .validationFault, fun (hpasses : LinePasses s line) => ?_, fun hsuccess => ?_⟩
      · simp [hd] at hdecode
      · simp [hpasses.validate_of_decoded hd] at hv
      · simp at hsuccess
    · obtain ⟨u, hu⟩ := hpasses.completesWith hf
      obtain ⟨-, -, -, -, hfault⟩ := completesWith_engineCells hu
      refine ⟨completeStep u, step_of_completesWith hs hu, fun hdecode => absurd hdecode hpasses.not_decodeFault, fun d hd hv => ?_,
        fun _ => ?_, fun hsuccess => ?_⟩
      · simp [hpasses.validate_of_decoded hd] at hv
      · rw [fault_completeStep_of_completesWith hu, hnone]
      · rw [fault_completeStep_of_haltedSuccess hsuccess, hfault, hnone]
  case halted =>
    rw [step_of_haltedError hs] at hstep
    cases hstep
    rfl

end Sys2Proof.Machine


/-! PROOFS. Reset (`70_reset_and_hazards.md` R180): each cell after it, and the engine states a move can reach. -/

namespace Sys2Proof.Machine

/-! ## Each cell after reset (`10_state.md` R25) -/

@[simp] theorem readReg_applyReset (s : State) (r : Reg) : s.applyReset.readReg r = 0 := by cases r <;> rfl
@[simp] theorem pc_applyReset (s : State) : s.applyReset.pc = 0 := rfl
@[simp] theorem count_applyReset (s : State) : s.applyReset.count = 0 := rfl
@[simp] theorem status_applyReset (s : State) : s.applyReset.status = .ready := rfl
@[simp] theorem fault_applyReset (s : State) : s.applyReset.fault = .none := rfl
@[simp] theorem out_applyReset (s : State) : s.applyReset.out = [] := rfl

/-- Reset is power-on with the inputs kept, so a machine just powered on is as reset leaves it. -/
theorem applyReset_powerOn (inp : Inputs) : (State.powerOn inp).applyReset = State.powerOn inp := rfl

/-! ## No part of a move leads to `Ready` (`45_engine.md` R142) -/

theorem status_start_ne_ready (s : State) : (start s).status ≠ .ready := by
  rcases start_cases s with ⟨_, h⟩ | ⟨_, _, h⟩ | ⟨_, _, h⟩ <;> simp [h]

/-- The end of a step halts the engine or leaves `STATE` as it was. -/
theorem status_completeStep_ne_ready {s : State} (hs : s.status ≠ .ready) : (completeStep s).status ≠ .ready := by
  rcases completeStep_cases s with ⟨_, h⟩ | ⟨_, _, h⟩ | ⟨_, _, h⟩ <;> simp [h, hs]

theorem status_runStep_ne_ready {s t : State} (hs : s.status = .running) (h : runStep s = .next t) : t.status ≠ .ready := by
  rcases runStep_cases s with ⟨_, hr⟩ | ⟨_, _, _, hr⟩ | ⟨_, _, _, _, _, hr⟩ | ⟨u, hu, hr⟩ <;> rw [hr] at h <;> cases h
  · simp
  · simp
  · obtain ⟨-, -, -, hstatus, -⟩ := completesWith_engineCells hu
    exact status_completeStep_ne_ready (by simp [hstatus, hs])

/-- The halted states are terminal (`45_engine.md` R142). -/
theorem eq_of_step_of_halted {s t : State} (hs : s.status = .haltedSuccess ∨ s.status = .haltedError) (h : step s = .next t) :
    t = s := by
  have hfixed : step s = .next s := hs.elim step_of_haltedSuccess step_of_haltedError
  rw [hfixed] at h
  cases h
  rfl

/-- No program can cause a reset (`70_reset_and_hazards.md` R180). -/
theorem status_step_ne_ready {s t : State} (h : step s = .next t) : t.status ≠ .ready := by
  cases hs : s.status with
  | ready =>
    rw [step_of_ready hs] at h
    cases h
    exact status_start_ne_ready s
  | running =>
    rw [step_of_running hs] at h
    exact status_runStep_ne_ready hs h
  | haltedSuccess => simp [eq_of_step_of_halted (.inl hs) h, hs]
  | haltedError => simp [eq_of_step_of_halted (.inr hs) h, hs]

/-- Settles O44: the cells after reset one by one, and the engine states a move can reach. -/
theorem resetSetsEveryCell : Obligations.ResetSetsEveryCell :=
  ⟨fun s => ⟨readReg_applyReset s, pc_applyReset s, count_applyReset s, status_applyReset s, fault_applyReset s, out_applyReset s,
      inputs_applyReset s⟩,
    (applyReset_powerOn Inputs.default).symm, fun _ _ => status_step_ne_ready, fun _ _ => eq_of_step_of_halted⟩

end Sys2Proof.Machine


/-! PROOFS. The decimal numeral (`44_jmp_prt.md` R129) and its reading (`30_encoding.md` R52): the numeral grows at its last digit, holds digits
alone, and reads back; then the rendered records. -/

namespace Sys2Proof

/-! ## The numeral, one digit at a time -/

theorem decimalAux_of_lt {n : Nat} (h : n < 10) (fuel : Nat) (acc : Token) : decimalAux (fuel + 1) n acc = digitChar n :: acc :=
  if_pos h

theorem decimalAux_of_ge {n : Nat} (h : 10 ≤ n) (fuel : Nat) (acc : Token) :
    decimalAux (fuel + 1) n acc = decimalAux fuel (n / 10) (digitChar (n % 10) :: acc) :=
  if_neg (Nat.not_lt_of_le h)

theorem decimalAux_eq_append (fuel n : Nat) (acc : Token) : decimalAux fuel n acc = decimalAux fuel n [] ++ acc := by
  induction fuel generalizing n acc with
  | zero => rfl
  | succ fuel ih =>
    rcases Nat.lt_or_ge n 10 with hn | hn
    · simp [decimalAux_of_lt hn]
    · rw [decimalAux_of_ge hn, decimalAux_of_ge hn, ih _ (_ :: acc), ih _ [_], List.append_assoc, List.singleton_append]

/-- Fuel for as many digits as `n` has binary ones is enough, and more changes nothing. -/
theorem decimalAux_fuel_irrel {fuel fuel' n : Nat} (h : n < 2 ^ (fuel + 1)) (h' : n < 2 ^ (fuel' + 1)) (acc : Token) :
    decimalAux (fuel + 1) n acc = decimalAux (fuel' + 1) n acc := by
  induction fuel generalizing fuel' n acc with
  | zero =>
    have hn : n < 10 := by omega
    rw [decimalAux_of_lt hn, decimalAux_of_lt hn]
  | succ fuel ih =>
    rcases Nat.lt_or_ge n 10 with hn | hn
    · rw [decimalAux_of_lt hn, decimalAux_of_lt hn]
    · rw [decimalAux_of_ge hn, decimalAux_of_ge hn]
      cases fuel' with
      | zero => omega
      | succ fuel' =>
        rw [Nat.pow_succ] at h h'
        exact ih (by omega) (by omega) _

theorem decimal_of_lt {n : Nat} (h : n < 10) : decimal n = [digitChar n] := by
  rw [decimal, decimalAux_of_lt h]

theorem decimal_of_ge {n : Nat} (h : 10 ≤ n) : decimal n = decimal (n / 10) ++ [digitChar (n % 10)] := by
  have hlog : 1 ≤ n.log2 := (Nat.le_log2 (by omega)).2 (by omega)
  obtain ⟨fuel, hfuel⟩ := Nat.exists_eq_add_of_le' hlog
  have hn : n < 2 ^ (fuel + 1 + 1) := hfuel ▸ Nat.lt_log2_self
  rw [Nat.pow_succ] at hn
  rw [decimal, decimalAux_of_ge h, decimalAux_eq_append, decimal, hfuel,
    decimalAux_fuel_irrel (by omega) Nat.lt_log2_self]

/-- Induction over a numeral from its first digit on. -/
theorem decimal_induction {motive : Nat → Token → Prop} (digit : ∀ n < 10, motive n [digitChar n])
    (snoc : ∀ n, 10 ≤ n → motive (n / 10) (decimal (n / 10)) → motive n (decimal (n / 10) ++ [digitChar (n % 10)])) (n : Nat) :
    motive n (decimal n) := by
  induction n using Nat.strongRecOn with
  | ind n ih =>
    by_cases hn : n < 10
    · rw [decimal_of_lt hn]
      exact digit n hn
    · rw [decimal_of_ge (by omega)]
      exact snoc n (by omega) (ih (n / 10) (by omega))

/-! ## Its characters (`00_scope.md` R8) -/

theorem toNat_digitChar {k : Nat} (hk : k < 10) : (digitChar k).toNat = 0x30 + k := by
  rw [digitChar, BitVec.toNat_ofNat]
  omega

theorem isDigit_digitChar {k : Nat} (hk : k < 10) : isDigit (digitChar k) = true := by
  rw [isDigit, toNat_digitChar hk, Bool.and_eq_true, decide_eq_true_eq, decide_eq_true_eq]
  omega

theorem isDigit_of_mem_decimal {n : Nat} : ∀ c ∈ decimal n, isDigit c = true := by
  induction n using decimal_induction with
  | digit n hn => simpa using isDigit_digitChar hn
  | snoc n _ ih =>
    have hlast : isDigit (digitChar (n % 10)) = true := isDigit_digitChar (by omega)
    simpa [or_imp, forall_and, hlast] using ih

theorem decimal_ne_nil (n : Nat) : decimal n ≠ [] := by
  induction n using decimal_induction with
  | digit n _ => simp
  | snoc n _ _ => simp

theorem decimal_zero : decimal 0 = [0x30] := rfl

/-- No leading zero: the first digit is that of a number below 10 that is not 0. -/
theorem head?_decimal_ne_zero {n : Nat} (hn : n ≠ 0) : (decimal n).head? ≠ some 0x30 := by
  revert hn
  induction n using decimal_induction with
  | digit n hlt =>
    intro hn hhead
    have hchar : digitChar n = 0x30 := by simpa using hhead
    have hvalue : 0x30 + n = 0x30 := by rw [← toNat_digitChar hlt, hchar]; rfl
    omega
  | snoc n hge ih =>
    intro _
    rw [List.head?_append_of_ne_nil _ (decimal_ne_nil (n / 10))]
    exact ih (by omega)

theorem length_decimal_le {n k : Nat} (hk : 1 ≤ k) (hn : n < 10 ^ k) : (decimal n).length ≤ k := by
  revert hk hn k
  induction n using decimal_induction with
  | digit n _ => exact fun hk _ => hk
  | snoc n hge ih =>
    intro k hk hn
    obtain ⟨j, rfl⟩ := Nat.exists_eq_add_of_le' hk
    rw [Nat.pow_succ] at hn
    have hj : 1 ≤ j := by
      by_contra h0
      obtain rfl : j = 0 := by omega
      omega
    have hlen := ih hj (by omega)
    simp only [List.length_append, List.length_singleton]
    omega

/-! ## Its value (`30_encoding.md` R52) -/

theorem digitsValue_append_singleton (t : Token) (c : Byte) : digitsValue (t ++ [c]) = 10 * digitsValue t + (c.toNat - 0x30) := by
  simp [digitsValue]

theorem digitsValue_decimal (n : Nat) : digitsValue (decimal n) = n := by
  induction n using decimal_induction with
  | digit n hn => simp [digitsValue, toNat_digitChar hn]
  | snoc n _ ih =>
    rw [digitsValue_append_singleton, ih, toNat_digitChar (by omega)]
    omega

theorem decimal_injective : Function.Injective decimal := fun m n h => by
  rw [← digitsValue_decimal m, h, digitsValue_decimal]

/-- The leading digit run ends where the numeral does. -/
theorem digits_decimal_append (n : Nat) {rest : Token} (h : ∀ c, rest.head? = some c → isDigit c = false) :
    digits (decimal n ++ rest) = decimal n := by
  have hrest : rest.takeWhile isDigit = [] := by
    cases rest with
    | nil => rfl
    | cons c cs => exact List.takeWhile_cons_of_neg (by simp [h c rfl])
  rw [digits, List.takeWhile_append_of_pos isDigit_of_mem_decimal, hrest, List.append_nil]

/-- Settles O8: the leading digit run is the numeral, which reads back digit by digit. -/
theorem decimalNumeralReadsBack : Obligations.DecimalNumeralReadsBack := by
  intro n rest hrest
  rw [litval, digits_decimal_append n hrest, digitsValue_decimal]

theorem litval_decimal (n : Nat) : litval (decimal n) = n := by
  simpa using decimalNumeralReadsBack n [] (by simp)

end Sys2Proof

namespace Sys2Proof.Machine

/-! ## Rendered records (`44_jmp_prt.md` R129) -/

/-- The name part of a rendered record: the register's name, or one blank. -/
def nameText : Option Reg → Token
  | some r => regName r
  | none => [space]

theorem render_eq (r : OutRecord) : render r = nameText r.name ++ ([0x20, 0x3D, 0x20] ++ decimal r.value) := by
  obtain ⟨name, value⟩ := r
  cases name with
  | none => rfl
  | some r => exact List.append_assoc _ _ _

theorem length_regName (r : Reg) : (regName r).length = 4 := by cases r <;> rfl

theorem regName_injective : Function.Injective regName := fun r q h => by
  have hsome : some r = some q := by rw [← regOf_regName r, h, regOf_regName]
  exact Option.some.inj hsome

/-- No register name begins with a blank, so the first character tells a named record from a blank one. -/
theorem space_cons_ne_regName_append (r : Reg) (xs ys : Line) : space :: xs ≠ regName r ++ ys := by
  cases r <;> simp [regName, space]

theorem nameText_append_inj {n m : Option Reg} {xs ys : Line} (h : nameText n ++ xs = nameText m ++ ys) : n = m ∧ xs = ys := by
  cases n with
  | none =>
    cases m with
    | none => simpa [nameText] using h
    | some m => exact absurd h (space_cons_ne_regName_append m xs ys)
  | some n =>
    cases m with
    | none => exact absurd h.symm (space_cons_ne_regName_append n ys xs)
    | some m =>
      obtain ⟨hname, hrest⟩ := List.append_inj h ((length_regName n).trans (length_regName m).symm)
      exact ⟨congrArg some (regName_injective hname), hrest⟩

theorem render_injective : Function.Injective render := by
  intro r q h
  rw [render_eq, render_eq] at h
  obtain ⟨hname, hrest⟩ := nameText_append_inj h
  have hvalue : r.value = q.value := decimal_injective (List.append_cancel_left hrest)
  cases r
  cases q
  cases hname
  cases hvalue
  rfl

theorem renderLog_append_singleton (log : List OutRecord) (r : OutRecord) :
    renderLog (log ++ [r]) = renderLog log ++ render r ++ [0x0A] := by
  simp [renderLog]

/-- Settles O49: the name part and the numeral are each read off the line, the one by its first character and its length, the other by its value. -/
theorem renderedRecordsAreFaithful : Obligations.RenderedRecordsAreFaithful :=
  ⟨fun _ _ => rfl, fun _ => rfl, decimal_zero,
    fun v => ⟨isDigit_of_mem_decimal, head?_decimal_ne_zero, decimal_ne_nil v, digitsValue_decimal v⟩,
    fun _ _ h => render_injective h, rfl, renderLog_append_singleton⟩

end Sys2Proof.Machine


/-! PROOFS. Decoding an encoded instruction (`30_encoding.md` sections 1 and 2, `41_decoder.md` section 1): a spelled operand is visible characters,
within the bound, and read back as the operand; the tokenizer cuts the encoded line into mnemonic and spelled operands. -/

namespace Sys2Proof

/-! ## Visible characters: neither the separator nor a terminator -/

/-- The ASCII codes past the blank. -/
abbrev IsVisible (c : Byte) : Prop := space.toNat < c.toNat

theorem IsVisible.ne_space {c : Byte} (h : IsVisible c) : c ≠ space := by
  rintro rfl
  exact absurd h (Nat.lt_irrefl _)

theorem IsVisible.isTerminator {c : Byte} (h : IsVisible c) : isTerminator c = false := by
  rw [Bool.eq_false_iff]
  intro hterm
  obtain rfl | rfl : c = 0x0A ∨ c = 0x0D := by simpa [Sys2Proof.isTerminator] using hterm
  · exact absurd h (by decide)
  · exact absurd h (by decide)

theorem space_not_mem_of_visible {t : Token} (h : ∀ c ∈ t, IsVisible c) : space ∉ t := fun hm => (h space hm).ne_space rfl

theorem isVisible_of_isDigit {c : Byte} (h : isDigit c = true) : IsVisible c := by
  obtain ⟨hlow, -⟩ : 0x30 ≤ c.toNat ∧ c.toNat ≤ 0x39 := by simpa [isDigit] using h
  exact Nat.lt_of_lt_of_le (by decide) hlow

theorem isVisible_of_mem_mnemonic (o : Opcode) : ∀ c ∈ mnemonic o, IsVisible c := by
  cases o <;> decide

theorem isVisible_of_mem_regName (r : Reg) : ∀ c ∈ regName r, IsVisible c := by
  cases r <;> decide

theorem isVisible_of_mem_spellOperand (p : Operand) : ∀ c ∈ spellOperand p, IsVisible c := by
  match p with
  | .reg r => exact isVisible_of_mem_regName r
  | .lit (.ofNat n) => exact fun c hc => isVisible_of_isDigit (isDigit_of_mem_decimal c hc)
  | .lit (.negSucc n) =>
    intro c hc
    rcases List.mem_cons.1 hc with rfl | hc
    · decide
    · exact isVisible_of_isDigit (isDigit_of_mem_decimal c hc)

/-! ## A spelled operand reads back (`40_operand_resolver.md` R65, `42_validator.md` R92) -/

/-- No register name begins with a digit or a minus sign. -/
theorem head?_regName_letter (r : Reg) : ∀ c, (regName r).head? = some c → isDigit c = false ∧ c ≠ minus := by
  cases r <;> decide

theorem exists_decimal_eq_cons (n : Nat) : ∃ c cs, decimal n = c :: cs ∧ isDigit c = true := by
  obtain ⟨c, cs, h⟩ := List.exists_cons_of_ne_nil (decimal_ne_nil n)
  exact ⟨c, cs, h, isDigit_of_mem_decimal (n := n) c (by simp [h])⟩

theorem decimal_ne_regName (n : Nat) (r : Reg) : decimal n ≠ regName r := by
  intro h
  obtain ⟨c, cs, hcons, hdigit⟩ := exists_decimal_eq_cons n
  obtain ⟨hletter, -⟩ := head?_regName_letter r c (by rw [← h, hcons, List.head?_cons])
  simp [hdigit] at hletter

theorem minus_cons_ne_regName (t : Token) (r : Reg) : minus :: t ≠ regName r := by
  intro h
  obtain ⟨-, hne⟩ := head?_regName_letter r minus (by rw [← h, List.head?_cons])
  exact hne rfl

theorem sval_decimal (n : Nat) : sval (decimal n) = n := by
  obtain ⟨c, cs, hcons, hdigit⟩ := exists_decimal_eq_cons n
  have hc : c ≠ minus := by
    rintro rfl
    simp [isDigit_minus] at hdigit
  rw [hcons, sval, if_neg hc, ← hcons, litval_decimal]

theorem sval_minus_decimal (n : Nat) : sval (minus :: decimal n) = -(n : Int) := by
  rw [sval, if_pos rfl, litval_decimal]

theorem operandOf_spellOperand (p : Operand) : operandOf (spellOperand p) = p := by
  match p with
  | .reg r => exact operandOf_regName r
  | .lit (.ofNat n) =>
    rw [spellOperand, operandOf_of_not_regName (decimal_ne_regName n), sval_decimal]
    rfl
  | .lit (.negSucc n) =>
    rw [spellOperand, operandOf_of_not_regName (minus_cons_ne_regName _), sval_minus_decimal]
    rfl

/-! ## Lengths (`41_decoder.md` R79) -/

theorem length_mnemonic_le (o : Opcode) : (mnemonic o).length ≤ 3 := by cases o <;> decide

theorem length_spellOperand_le {tokenMax : Nat} {p : Operand} (h : p.fits tokenMax = true) : (spellOperand p).length ≤ tokenMax := by
  match p with
  | .reg r =>
    rw [spellOperand, Machine.length_regName]
    simpa [Operand.fits] using h
  | .lit (.ofNat n) =>
    obtain ⟨hpos, hn⟩ : 1 ≤ tokenMax ∧ n < 10 ^ tokenMax := by simpa [Operand.fits] using h
    exact length_decimal_le hpos hn
  | .lit (.negSucc n) =>
    obtain ⟨hpos, hn⟩ : 2 ≤ tokenMax ∧ n + 1 < 10 ^ (tokenMax - 1) := by simpa [Operand.fits] using h
    have hlen : (decimal (n + 1)).length ≤ tokenMax - 1 := length_decimal_le (by omega) hn
    rw [spellOperand, List.length_cons]
    omega

/-! ## The encoded line under the tokenizer -/

theorem stripTerminators_of_no_terminator {line : Line} (h : ∀ c ∈ line, isTerminator c = false) : stripTerminators line = line := by
  induction line with
  | nil => rfl
  | cons c cs ih =>
    rw [stripTerminators_cons (.inl (h c (by simp))), ih fun d hd => h d (by simp [hd])]

theorem isTerminator_of_mem_encode (i : Instr) : ∀ c ∈ encode i, isTerminator c = false := by
  intro c hc
  rcases List.mem_append.1 hc with hc | hc
  · exact (isVisible_of_mem_mnemonic i.opcode c hc).isTerminator
  · obtain ⟨p, -, hc⟩ := List.mem_flatMap.1 hc
    rcases List.mem_cons.1 hc with rfl | hc
    · exact isTerminator_space
    · exact (isVisible_of_mem_spellOperand p c hc).isTerminator

/-- The triple of a mnemonic and at most two spelled operands; an absent field is empty (`41_decoder.md` R78). -/
def spelledTriple (o : Opcode) : List Operand → Decoded
  | [] => ⟨mnemonic o, [], []⟩
  | [p] => ⟨mnemonic o, spellOperand p, []⟩
  | p :: q :: _ => ⟨mnemonic o, spellOperand p, spellOperand q⟩

theorem cut3_mnemonic_append_operands (o : Opcode) {ps : List Operand} (h : ps.length ≤ 2) :
    cut3 (mnemonic o ++ ps.flatMap fun p => space :: spellOperand p) = spelledTriple o ps := by
  have ho : space ∉ mnemonic o := space_not_mem_mnemonic o
  have hp (p : Operand) : space ∉ spellOperand p := space_not_mem_of_visible (isVisible_of_mem_spellOperand p)
  match ps, h with
  | [], _ => simp [cut3, nextField, spelledTriple, cutField_of_no_space ho]
  | [p], _ => simp [cut3, nextField, spelledTriple, cutField_append_space ho, cutField_of_no_space (hp p)]
  | [p, q], _ =>
    simp [cut3, nextField, spelledTriple, cutField_append_space ho, cutField_append_space (hp p), cutField_of_no_space (hp q)]

theorem length_operands_le (i : Instr) : i.operands.length ≤ 2 := by cases i <;> simp [Instr.operands]

theorem cut3_encode (i : Instr) : cut3 (encode i) = spelledTriple i.opcode i.operands :=
  cut3_mnemonic_append_operands i.opcode (length_operands_le i)

theorem hasOverlongField_spelledTriple {tokenMax : Nat} {o : Opcode} {ps : List Operand} (hm : 3 ≤ tokenMax)
    (hfits : ∀ p ∈ ps, p.fits tokenMax = true) : hasOverlongField tokenMax (spelledTriple o ps) = false := by
  have ho : (mnemonic o).length ≤ tokenMax := (length_mnemonic_le o).trans hm
  have hp (p : Operand) (hmem : p ∈ ps) : (spellOperand p).length ≤ tokenMax := length_spellOperand_le (hfits p hmem)
  rw [Bool.eq_false_iff, Ne, hasOverlongField_iff]
  match ps with
  | [] => simp [spelledTriple, ho]
  | [p] => simp [spelledTriple, ho, hp p]
  | p :: q :: _ => simp [spelledTriple, ho, hp p, hp q]

/-- The line of an instruction whose fields fit the bound is cut into exactly its spelled fields. -/
theorem decodeLine_encode {tokenMax : Nat} {i : Instr} (h : i.fits tokenMax = true) :
    decodeLine tokenMax (encode i) = .decoded (spelledTriple i.opcode i.operands) := by
  obtain ⟨hm, hfits⟩ : 3 ≤ tokenMax ∧ ∀ p ∈ i.operands, p.fits tokenMax = true := by simpa [Instr.fits] using h
  have hstrip : stripTerminators (encode i) = encode i := stripTerminators_of_no_terminator (isTerminator_of_mem_encode i)
  have hc : (stripTerminators (encode i)).head? ≠ some commentMarker := by
    rw [hstrip]
    exact not_comment_of_mnemonic (cut3_encode_opcode i)
  rw [decodeLine_of_not_comment tokenMax hc, hstrip, cut3_encode, hasOverlongField_spelledTriple hm hfits, if_neg Bool.false_ne_true]

theorem instrOf_spelledTriple (i : Instr) : instrOf (spelledTriple i.opcode i.operands) = some i := by
  cases i <;> simp [Instr.opcode, Instr.operands, spelledTriple, instrOf_mnemonic, instrWith, operandOf_spellOperand]

/-- Settles O1: the tokenizer gives back the spelled fields, and each field is read as what it spells. -/
theorem decodeOfEncodeIsTheInstruction : Obligations.DecodeOfEncodeIsTheInstruction := fun _ i h =>
  decode_eq_instr_iff.2 ⟨_, decodeLine_encode h, instrOf_spelledTriple i⟩

/-- Settles O3: each of the five lines is the encoding of its instruction, whose fields fit 16 characters. -/
theorem writtenOutWordsDecode : Obligations.WrittenOutWordsDecode := by
  have hdecode (i : Instr) (h : i.fits 16 = true) : decode 16 (encode i) = .instr i := decodeOfEncodeIsTheInstruction 16 i h
  exact ⟨hdecode .nop (by decide), hdecode (.set (.reg .a) (.lit 5)) (by decide), hdecode (.shr (.reg .x) (.reg .a)) (by decide),
    hdecode (.jmp (.lit 1)) (by decide), hdecode (.prt (.reg .b)) (by decide)⟩

/-! ## Which instructions have a line (`00_scope.md` section 4) -/

theorem Operand.validSecond_of_validFirst {xlen : Nat} {p : Operand} (h : p.validFirst xlen = true) : p.validSecond xlen = true := by
  cases p with
  | reg r => rfl
  | lit v =>
    obtain ⟨hlow, hhigh⟩ : 1 ≤ v ∧ v ≤ ((2 ^ xlen - 1 : Nat) : Int) := by simpa [Operand.validFirst] using h
    have hnonneg : 0 ≤ v := by omega
    simpa [Operand.validSecond, hnonneg] using hhigh

/-- A literal the operand checks accept is a natural number below `2 ^ XLEN`. -/
theorem Operand.exists_natCast_of_validSecond {xlen : Nat} {v : Int} (h : (Operand.lit v).validSecond xlen = true) :
    ∃ n : Nat, v = n ∧ n < 2 ^ xlen := by
  obtain ⟨hlow, hhigh⟩ : 0 ≤ v ∧ v ≤ ((2 ^ xlen - 1 : Nat) : Int) := by simpa [Operand.validSecond] using h
  have hpos : 0 < 2 ^ xlen := Nat.two_pow_pos xlen
  exact ⟨v.toNat, by omega, by omega⟩

/-- Both operand checks put a literal in the range of a register. -/
theorem Instr.validSecond_of_mem_operands {xlen : Nat} {i : Instr} {p : Operand} (h : i.wellFormed xlen = true)
    (hp : p ∈ i.operands) : p.validSecond xlen = true := by
  have hone {q : Operand} (hq : q.validFirst xlen = true) (hmem : p ∈ [q]) : p.validSecond xlen = true := by
    rw [List.mem_singleton.1 hmem]
    exact Operand.validSecond_of_validFirst hq
  have htwo {q r : Operand} (hqr : (q.validFirst xlen && r.validSecond xlen) = true) (hmem : p ∈ [q, r]) :
      p.validSecond xlen = true := by
    obtain ⟨hq, hr⟩ := Bool.and_eq_true_iff.1 hqr
    rcases List.mem_cons.1 hmem with rfl | hmem
    · exact Operand.validSecond_of_validFirst hq
    · rw [List.mem_singleton.1 hmem]
      exact hr
  cases i with
  | nop => exact absurd hp List.not_mem_nil
  | jmp q => exact hone h hp
  | prt q => exact hone h hp
  | set q r => exact htwo h hp
  | and q r => exact htwo h hp
  | or q r => exact htwo h hp
  | add q r => exact htwo h hp
  | sub q r => exact htwo h hp
  | shl q r => exact htwo h hp
  | shr q r => exact htwo h hp

theorem Operand.fits_of_validSecond {xlen tokenMax : Nat} {p : Operand} (hm : 4 ≤ tokenMax) (hwidth : 2 ^ xlen ≤ 10 ^ tokenMax)
    (h : p.validSecond xlen = true) : p.fits tokenMax = true := by
  cases p with
  | reg r => simpa [Operand.fits] using hm
  | lit v =>
    obtain ⟨n, rfl, hn⟩ := Operand.exists_natCast_of_validSecond h
    change (decide (1 ≤ tokenMax) && decide (n < 10 ^ tokenMax)) = true
    rw [Bool.and_eq_true, decide_eq_true_eq, decide_eq_true_eq]
    omega

/-- Settles O2: the operand checks bound every literal by the width, hence by the numerals the token bound holds. -/
theorem wellFormedInstructionsHaveALine : Obligations.WellFormedInstructionsHaveALine := by
  intro xlen tokenMax i hm hwidth hwf
  have hmnemonic : 3 ≤ tokenMax := by omega
  have hfits : ∀ p ∈ i.operands, p.fits tokenMax = true := fun p hp =>
    Operand.fits_of_validSecond hm hwidth (Instr.validSecond_of_mem_operands hwf hp)
  simpa [Instr.fits, hmnemonic] using hfits

/-! ## Trailing terminators, bounds of the fields (`41_decoder.md` sections 1 and 2) -/

theorem stripTerminators_of_all_terminators {ends : Line} (h : ∀ c ∈ ends, isTerminator c = true) : stripTerminators ends = [] := by
  induction ends with
  | nil => rfl
  | cons c cs ih =>
    rw [stripTerminators, ih fun d hd => h d (by simp [hd])]
    exact if_pos (h c (by simp))

theorem stripTerminators_append_terminators (line : Line) {ends : Line} (h : ∀ c ∈ ends, isTerminator c = true) :
    stripTerminators (line ++ ends) = stripTerminators line := by
  induction line with
  | nil => exact stripTerminators_of_all_terminators h
  | cons c cs ih => rw [List.cons_append, stripTerminators, stripTerminators, ih]

/-- The decoder reads a line only through what is left of it without its terminators. -/
theorem decode_congr {line line' : Line} (tokenMax : Nat) (h : stripTerminators line = stripTerminators line') :
    decode tokenMax line = decode tokenMax line' := by
  rw [decode, decode, decodeLine, decodeLine, h]

/-- Settles O4: the terminators at the end come off before anything is read. -/
theorem trailingTerminatorsAreIgnored : Obligations.TrailingTerminatorsAreIgnored := fun tokenMax line ends h =>
  decode_congr tokenMax (stripTerminators_append_terminators line fun c hc => by simpa [isTerminator] using h c hc)

theorem space_not_mem_nextField (rest : Option Line) : space ∉ (nextField rest).1 := by
  cases rest with
  | none => exact List.not_mem_nil
  | some s => exact space_not_mem_cutField s

/-- A decoded triple was cut from the line and has passed the length check. -/
theorem cut3_of_decoded {tokenMax : Nat} {line : Line} {d : Decoded} (h : decodeLine tokenMax line = .decoded d) :
    d = cut3 (stripTerminators line) ∧ hasOverlongField tokenMax d = false := by
  by_cases hc : (stripTerminators line).head? = some commentMarker
  · simp [decodeLine_of_comment tokenMax hc] at h
  · rw [decodeLine_of_not_comment tokenMax hc] at h
    split at h
    case isTrue => cases h
    case isFalse hshort =>
      cases h
      exact ⟨rfl, Bool.eq_false_iff.2 hshort⟩

/-- Settles O5: each field was cut at a space and has passed the length check. -/
theorem decodedFieldsAreBoundedAndSpaceless : Obligations.DecodedFieldsAreBoundedAndSpaceless := by
  intro tokenMax line d hd
  obtain ⟨rfl, hshort⟩ := cut3_of_decoded hd
  rw [Bool.eq_false_iff, Ne, hasOverlongField_iff, not_or, not_or, Nat.not_lt, Nat.not_lt, Nat.not_lt] at hshort
  obtain ⟨h0, h1, h2⟩ := hshort
  simp only [List.forall_mem_cons, List.not_mem_nil, false_implies, implies_true, and_true]
  exact ⟨⟨space_not_mem_cutField _, h0⟩, ⟨space_not_mem_nextField _, h1⟩, ⟨space_not_mem_nextField _, h2⟩⟩

/-! ## No field is longer than its line -/

theorem length_stripTerminators_le (line : Line) : (stripTerminators line).length ≤ line.length := by
  induction line with
  | nil => exact Nat.le_refl _
  | cons c cs ih =>
    rw [stripTerminators]
    split
    case h_1 => split <;> simp
    case h_2 d ds hs =>
      rw [hs] at ih
      simpa using ih

/-- The length of what a field left over; nothing where the line has ended. -/
def restLength : Option Line → Nat
  | none => 0
  | some s => s.length

theorem length_cutField_le (s : Line) : (cutField s).1.length ≤ s.length ∧ restLength (cutField s).2 ≤ s.length := by
  induction s with
  | nil => exact ⟨Nat.le_refl _, Nat.le_refl _⟩
  | cons c cs ih =>
    obtain ⟨hfield, hrest⟩ := ih
    by_cases hc : c = space
    · simp [cutField, hc, restLength]
    · simp only [cutField, if_neg hc, List.length_cons]
      omega

theorem length_nextField_le (rest : Option Line) :
    (nextField rest).1.length ≤ restLength rest ∧ restLength (nextField rest).2 ≤ restLength rest := by
  cases rest with
  | none => exact ⟨Nat.le_refl _, Nat.le_refl _⟩
  | some s => exact length_cutField_le s

theorem length_cut3_le (s : Line) :
    (cut3 s).opcode.length ≤ s.length ∧ (cut3 s).arg1.length ≤ s.length ∧ (cut3 s).arg2.length ≤ s.length := by
  obtain ⟨h0, hrest0⟩ := length_cutField_le s
  obtain ⟨h1, hrest1⟩ := length_nextField_le (cutField s).2
  obtain ⟨h2, -⟩ := length_nextField_le (nextField (cutField s).2).2
  exact ⟨h0, h1.trans hrest0, h2.trans (hrest1.trans hrest0)⟩

/-- Settles O6: a field is no longer than its line. -/
theorem wideTokenBoundNeverFaults : Obligations.WideTokenBoundNeverFaults := by
  intro tokenMax lineMax line hbound hline
  by_cases hc : (stripTerminators line).head? = some commentMarker
  · simp [decodeLine_of_comment tokenMax hc]
  · have hstrip := length_stripTerminators_le line
    obtain ⟨h0, h1, h2⟩ := length_cut3_le (stripTerminators line)
    have hshort : ¬ hasOverlongField tokenMax (cut3 (stripTerminators line)) = true := by
      rw [hasOverlongField_iff]
      omega
    simp [decodeLine_of_not_comment tokenMax hc, hshort]

end Sys2Proof


/-! PROOFS. The validator on instructions as data (`42_validator.md` section 1), and what a validated literal resolves to. -/

namespace Sys2Proof.Machine

/-! ## The two operand tests, read off the operand (`42_validator.md` R94, R95) -/

theorem token_cases (t : Token) : (∃ r, t = regName r) ∨ (isReg t = false ∧ operandOf t = .lit (sval t)) := by
  by_cases h : ∃ r, t = regName r
  · exact .inl h
  · exact .inr ⟨isReg_eq_false_iff.2 (not_exists.1 h), operandOf_of_not_regName (not_exists.1 h)⟩

theorem valid1_eq_validFirst (xlen : Nat) (t : Token) : valid1 xlen t = (operandOf t).validFirst xlen := by
  rcases token_cases t with ⟨r, rfl⟩ | ⟨hreg, hlit⟩
  · simp [valid1, isReg, Operand.validFirst]
  · rw [hlit, valid1, hreg, Bool.false_or, Operand.validFirst]

theorem valid2_eq_validSecond (xlen : Nat) (t : Token) : valid2 xlen t = (operandOf t).validSecond xlen := by
  rcases token_cases t with ⟨r, rfl⟩ | ⟨hreg, hlit⟩
  · simp [valid2, isReg, Operand.validSecond]
  · rw [hlit, valid2, hreg, Bool.false_or, Operand.validSecond]

/-- Under a mnemonic the validator tests the instruction the triple stands for. -/
theorem validate_mnemonic (xlen : Nat) (o : Opcode) (a1 a2 : Token) :
    validate xlen ⟨mnemonic o, a1, a2⟩ = (instrWith o a1 a2).wellFormed xlen := by
  have hone (ho : o = .jmp ∨ o = .prt) : validate xlen ⟨mnemonic o, a1, a2⟩ = (operandOf a1).validFirst xlen := by
    rw [validate_of_oneOperand xlen ho, valid1_eq_validFirst]
  have htwo (ho : o ∈ twoOperandOpcodes) :
      validate xlen ⟨mnemonic o, a1, a2⟩ = ((operandOf a1).validFirst xlen && (operandOf a2).validSecond xlen) := by
    rw [validate_of_twoOperand xlen ho, valid1_eq_validFirst, valid2_eq_validSecond]
  cases o with
  | nop => exact validate_nop xlen a1 a2
  | jmp => exact hone (.inl rfl)
  | prt => exact hone (.inr rfl)
  | set => exact htwo (by decide)
  | and => exact htwo (by decide)
  | or => exact htwo (by decide)
  | add => exact htwo (by decide)
  | sub => exact htwo (by decide)
  | shl => exact htwo (by decide)
  | shr => exact htwo (by decide)

/-- Settles O10: under a mnemonic the validator's tests are the operand checks of the instruction; any other opcode field stands for none. -/
theorem validatorPassesExactlyWellFormed : Obligations.ValidatorPassesExactlyWellFormed := by
  rintro xlen ⟨op, a1, a2⟩
  by_cases hknown : ∃ o, op = mnemonic o
  · obtain ⟨o, rfl⟩ := hknown
    simp [validate_mnemonic, instrOf_mnemonic]
  · have hunknown : ∀ o, op ≠ mnemonic o := not_exists.1 hknown
    have hnone : opcodeOf op = none := opcodeOf_eq_none.2 fun o => (hunknown o).symm
    simp [validate_of_unknownOpcode xlen (d := ⟨op, a1, a2⟩) hunknown, instrOf, hnone]

theorem wellFormed_of_validate {xlen : Nat} {d : Decoded} {i : Instr} (hv : validate xlen d = true) (hi : instrOf d = some i) :
    i.wellFormed xlen = true := by
  obtain ⟨j, hj, hwf⟩ := (validatorPassesExactlyWellFormed xlen d).1 hv
  rw [hi] at hj
  cases hj
  exact hwf

/-- A literal in the range of a register is not reduced (`40_operand_resolver.md` R66). -/
theorem resolve_lit_of_validSecond {s : State} {v : Int} (h : (Operand.lit v).validSecond s.xlen = true) :
    (resolve s (.lit v) : Int) = v := by
  obtain ⟨n, rfl, hn⟩ := Operand.exists_natCast_of_validSecond h
  rw [resolve_lit, Int.toNat_natCast, Nat.mod_eq_of_lt hn]

/-- Settles O13: the validator puts every literal operand in the range of a register. -/
theorem validatedLiteralsResolveToThemselves : Obligations.ValidatedLiteralsResolveToThemselves := fun _ _ _ _ hv hi hmem =>
  resolve_lit_of_validSecond (Instr.validSecond_of_mem_operands (wellFormed_of_validate hv hi) hmem)

end Sys2Proof.Machine

/-! PROOFS. Laws of the arithmetic (`43_data_ops.md` sections 2 and 3). -/

namespace Sys2Proof.Machine

/-! ## The shifts as products and quotients -/

/-- The formula holds for amounts of `XLEN` or more too, where the product is a multiple of `2 ^ XLEN` (D12). -/
theorem aluShl_eq (xlen x n : Nat) : aluShl xlen x n = x * 2 ^ n % 2 ^ xlen := by
  rcases Nat.lt_or_ge n xlen with hn | hn
  · exact if_pos hn
  · have hdvd : 2 ^ xlen ∣ x * 2 ^ n := (Nat.pow_dvd_pow 2 hn).mul_left x
    rw [Nat.mod_eq_zero_of_dvd hdvd]
    exact if_neg (Nat.not_lt_of_le hn)

theorem aluShr_eq (x n : Nat) : aluShr x n = x / 2 ^ n := Nat.shiftRight_eq_div_pow x n

/-- Settles O27: a product with `2 ^ n` moves bits up and the reduction drops those past the top; the right shift moves them down. -/
theorem shiftsMoveBits : Obligations.ShiftsMoveBits := by
  refine fun xlen x n k => ⟨?_, Nat.testBit_shiftRight x⟩
  rw [aluShl_eq, Nat.testBit_mod_two_pow, Nat.testBit_mul_two_pow, Bool.and_assoc]

/-! ## Range (`43_data_ops.md` R114) -/

theorem aluAdd_lt (xlen x v : Nat) : aluAdd xlen x v < 2 ^ xlen := Nat.mod_lt _ (Nat.two_pow_pos xlen)

theorem aluShl_lt (xlen x n : Nat) : aluShl xlen x n < 2 ^ xlen := by
  rw [aluShl_eq]
  exact Nat.mod_lt _ (Nat.two_pow_pos xlen)

theorem aluShr_le (x n : Nat) : aluShr x n ≤ x := Nat.shiftRight_le x n

/-- Settles O25: the reductions keep three operations in range, the others exceed no operand's bits. -/
theorem arithmeticStaysInRange : Obligations.ArithmeticStaysInRange := fun xlen x v hx hv =>
  ⟨hv, Nat.and_lt_two_pow x hv, Nat.or_lt_two_pow hx hv, aluAdd_lt xlen x v, aluSub_lt xlen x v, aluShl_lt xlen x v,
    (aluShr_le x v).trans_lt hx⟩

/-! ## Addition and subtraction -/

theorem natCast_aluAdd (xlen x v : Nat) : (aluAdd xlen x v : Int) = ((x : Int) + (v : Int)) % ((2 ^ xlen : Nat) : Int) := by
  rw [aluAdd, Int.natCast_emod, Int.natCast_add]

/-- Settles O26: both are exact up to multiples of `2 ^ XLEN`, so either order leaves `x` modulo `2 ^ XLEN`, which is `x`. -/
theorem subtractionUndoesAddition : Obligations.SubtractionUndoesAddition := by
  intro xlen x v hx
  have hmod : (x : Int) % ((2 ^ xlen : Nat) : Int) = x := by rw [← Int.natCast_emod, Nat.mod_eq_of_lt hx]
  constructor
  · rw [← Int.natCast_inj, natCast_aluSub, natCast_aluAdd, Int.emod_sub_emod, Int.add_sub_cancel, hmod]
  · rw [← Int.natCast_inj, natCast_aluAdd, natCast_aluSub, Int.emod_add_emod, Int.sub_add_cancel, hmod]

end Sys2Proof.Machine


/-! PROOFS. The shifts, `JMP` and `PRT` (`43_data_ops.md` section 2, `44_jmp_prt.md`), and what any instruction can do: everything an instruction
of the ten is, and from it the frame, `pc`, and the cells that are not read. -/

namespace Sys2Proof.Machine

/-! ## Dispatch (`43_data_ops.md` R112, R113, `44_jmp_prt.md` R126, R128) -/

theorem exec_shl (dst amount : Operand) (s : State) : exec (.shl dst amount) s = .next (dataOp (aluShl s.xlen) dst amount s) := rfl
theorem exec_shr (dst amount : Operand) (s : State) : exec (.shr dst amount) s = .next (dataOp aluShr dst amount s) := rfl
theorem exec_prt (what : Operand) (s : State) : exec (.prt what) s = .next (s.emit (recordOf s what)).advancePc := rfl

theorem exec_jmp_of_regx_eq_zero {s : State} (h : s.regx = 0) (target : Operand) :
    exec (.jmp target) s = .next (s.setPc (resolve s target)) := by
  simp [exec, execJmp, flagIsZero, State.readReg, h]

theorem exec_jmp_of_regx_ne_zero {s : State} (h : s.regx ≠ 0) (target : Operand) : exec (.jmp target) s = .next s.advancePc := by
  simp [exec, execJmp, flagIsZero, State.readReg, h]

/-- Settles O21: `SHL` runs the data frame with the product, reduced modulo `2 ^ XLEN`. -/
theorem shlMultipliesModulo : Obligations.ShlMultipliesModulo := by
  refine ⟨instrOf_mnemonic .shl, fun dst amount s => ?_⟩
  have hfun : aluShl s.xlen = fun x n => x * 2 ^ n % 2 ^ s.xlen := funext₂ (aluShl_eq s.xlen)
  rw [← hfun]
  exact exec_dataEffect (exec_shl dst amount s)

/-- Settles O22: `SHR` runs the data frame with the rounded-down quotient. -/
theorem shrDividesRoundingDown : Obligations.ShrDividesRoundingDown := by
  refine ⟨instrOf_mnemonic .shr, fun dst amount s => ?_⟩
  have hfun : aluShr = fun x n => x / 2 ^ n := funext₂ aluShr_eq
  rw [← hfun]
  exact exec_dataEffect (exec_shr dst amount s)

/-! ## A line that decodes to a well-formed instruction (`45_engine.md` R137) -/

/-- The validator passes the line's triple, so the instruction takes effect. -/
theorem completesWith_of_decode {s u : State} {line : Line} {i : Instr} (hf : s.fetch s.pc = some line)
    (hdec : decode s.inputs.cfg.tokenMax line = .instr i) (hwf : i.wellFormed s.xlen = true) (hu : exec i s = .next u) :
    CompletesWith s u := by
  obtain ⟨d, hd, hi⟩ := decode_eq_instr_iff.1 hdec
  exact ⟨line, hf, .inr ⟨d, i, hd, (validatorPassesExactlyWellFormed s.xlen d).2 ⟨i, hi, hwf⟩, hi, hu⟩⟩

/-- Settles O32: such a line takes effect by `exec`, and what takes effect is followed by the end of the step. -/
theorem stepRunsTheDecodedInstruction : Obligations.StepRunsTheDecodedInstruction := by
  intro s line i hs hf hdec hwf
  obtain ⟨u, hu⟩ := exec_next i s
  have hstep : step s = .next (completeStep u) := step_of_completesWith hs (completesWith_of_decode hf hdec hwf hu)
  exact ⟨by rw [hstep, hu, afterDispatch], u, hu, hstep⟩

/-- Settles O23: one equation of the handler for each value of the flag test; a jump past the program meets the termination test. -/
theorem jmpJumpsWhenTheFlagIsZero : Obligations.JmpJumpsWhenTheFlagIsZero := by
  refine ⟨instrOf_mnemonic .jmp, fun target s => ?effect, fun _ => rfl, fun s line target hs hf hdec hwf hzero hfar hcount => ?far⟩
  case effect =>
    by_cases hzero : s.regx = 0
    · have ht := exec_jmp_of_regx_eq_zero hzero target
      exact ⟨_, ht, fun _ => rfl, fun hne => absurd hzero hne, readReg_setPc s _, rfl, exec_engineCells ht⟩
    · have ht := exec_jmp_of_regx_ne_zero hzero target
      exact ⟨_, ht, fun h => absurd h hzero, fun _ => rfl, readReg_advancePc s, rfl, exec_engineCells ht⟩
  case far =>
    have hu := completesWith_of_decode hf hdec hwf (exec_jmp_of_regx_eq_zero hzero target)
    exact ⟨_, step_of_completesWith_of_progLen_le hs hu hcount hfar, rfl, rfl⟩

/-- Settles O24: the handler appends the one record and advances; the literal check keeps 0 out; the ceiling test comes after the effect. -/
theorem prtAppendsOneRecord : Obligations.PrtAppendsOneRecord := by
  refine ⟨instrOf_mnemonic .prt, fun what s => ?effect, fun s v hwf => ?nonzero, fun s line what hs hf hdec hwf hcount => ?ceiling⟩
  case effect =>
    refine ⟨_, exec_prt what s, ?_, ?_, rfl, fun r => ?_, exec_engineCells (exec_prt what s)⟩
    · rintro r rfl
      rfl
    · rintro v rfl
      rfl
    · rw [readReg_advancePc, readReg_emit]
  case nonzero =>
    obtain ⟨hlow, -⟩ : 1 ≤ v ∧ v ≤ ((2 ^ s.xlen - 1 : Nat) : Int) := by simpa [Instr.wellFormed, Operand.validFirst] using hwf
    have hvalue : (resolve s (.lit v) : Int) = v := resolve_lit_of_validSecond (Operand.validSecond_of_validFirst hwf)
    omega
  case ceiling =>
    have hu := completesWith_of_decode hf hdec hwf (exec_prt what s)
    exact ⟨_, step_of_completesWith_of_ceiling_lt hs hu (by omega), rfl, rfl, rfl⟩

/-! ## The shared frame, cell by cell (`43_data_ops.md` R105) -/

theorem readReg_dataOp (f : Nat → Nat → Nat) (dst src : Operand) (s : State) (r : Reg) :
    (dataOp f dst src s).readReg r = if destOf dst = some r then f (s.readReg r) (resolve s src) else s.readReg r := by
  obtain ⟨hreg, hlit, -⟩ := dataOp_effect f dst src s
  cases dst with
  | lit v => exact hlit v rfl r
  | reg d =>
    obtain ⟨hsame, hother⟩ := hreg d rfl
    by_cases hr : r = d
    · subst hr
      exact hsame.trans (if_pos rfl).symm
    · have hne : destOf (.reg d) ≠ some r := fun h => hr (Option.some.inj h).symm
      rw [hother r hr, if_neg hne]

@[simp] theorem pc_dataOp (f : Nat → Nat → Nat) (dst src : Operand) (s : State) : (dataOp f dst src s).pc = s.pc + 1 := by
  obtain ⟨-, -, hpc, -⟩ := dataOp_effect f dst src s
  exact hpc

@[simp] theorem out_dataOp (f : Nat → Nat → Nat) (dst src : Operand) (s : State) : (dataOp f dst src s).out = s.out := by
  obtain ⟨-, -, -, hout, -⟩ := dataOp_effect f dst src s
  exact hout

/-! ## The ten instructions in four kinds -/

/-- `i` runs the shared frame with `f`, an operation that stays in the range of a register. -/
structure IsDataInstr (i : Instr) (f : Nat → Nat → Nat → Nat) (dst src : Operand) : Prop where
  opcode_mem : i.opcode ∈ twoOperandOpcodes
  destination : destinationOf i = destOf dst
  inRange : ∀ xlen x v, x < 2 ^ xlen → v < 2 ^ xlen → f xlen x v < 2 ^ xlen
  exec_eq : ∀ s, exec i s = .next (dataOp (f s.xlen) dst src s)

theorem isDataInstr_set (p q : Operand) : IsDataInstr (.set p q) (fun _ => aluSet) p q :=
  ⟨by simp [Instr.opcode, twoOperandOpcodes], rfl, fun _ _ _ _ hv => hv, exec_set p q⟩
theorem isDataInstr_and (p q : Operand) : IsDataInstr (.and p q) (fun _ => aluAnd) p q :=
  ⟨by simp [Instr.opcode, twoOperandOpcodes], rfl, fun _ x _ _ hv => Nat.and_lt_two_pow x hv, exec_and p q⟩
theorem isDataInstr_or (p q : Operand) : IsDataInstr (.or p q) (fun _ => aluOr) p q :=
  ⟨by simp [Instr.opcode, twoOperandOpcodes], rfl, fun _ _ _ => Nat.or_lt_two_pow, exec_or p q⟩
theorem isDataInstr_add (p q : Operand) : IsDataInstr (.add p q) aluAdd p q :=
  ⟨by simp [Instr.opcode, twoOperandOpcodes], rfl, fun xlen x v _ _ => aluAdd_lt xlen x v, exec_add p q⟩
theorem isDataInstr_sub (p q : Operand) : IsDataInstr (.sub p q) aluSub p q :=
  ⟨by simp [Instr.opcode, twoOperandOpcodes], rfl, fun xlen x v _ _ => aluSub_lt xlen x v, exec_sub p q⟩
theorem isDataInstr_shl (p q : Operand) : IsDataInstr (.shl p q) aluShl p q :=
  ⟨by simp [Instr.opcode, twoOperandOpcodes], rfl, fun xlen x v _ _ => aluShl_lt xlen x v, exec_shl p q⟩
theorem isDataInstr_shr (p q : Operand) : IsDataInstr (.shr p q) (fun _ => aluShr) p q :=
  ⟨by simp [Instr.opcode, twoOperandOpcodes], rfl, fun _ x v hx _ => (aluShr_le x v).trans_lt hx, exec_shr p q⟩

/-- Everything an instruction is: one of the seven of the shared frame, or one of the three others. -/
theorem instr_cases (i : Instr) :
    i = .nop ∨ (∃ target, i = .jmp target) ∨ (∃ what, i = .prt what) ∨ ∃ f dst src, IsDataInstr i f dst src := by
  cases i with
  | nop => exact .inl rfl
  | jmp p => exact .inr (.inl ⟨p, rfl⟩)
  | prt p => exact .inr (.inr (.inl ⟨p, rfl⟩))
  | set p q => exact .inr (.inr (.inr ⟨_, p, q, isDataInstr_set p q⟩))
  | and p q => exact .inr (.inr (.inr ⟨_, p, q, isDataInstr_and p q⟩))
  | or p q => exact .inr (.inr (.inr ⟨_, p, q, isDataInstr_or p q⟩))
  | add p q => exact .inr (.inr (.inr ⟨_, p, q, isDataInstr_add p q⟩))
  | sub p q => exact .inr (.inr (.inr ⟨_, p, q, isDataInstr_sub p q⟩))
  | shl p q => exact .inr (.inr (.inr ⟨_, p, q, isDataInstr_shl p q⟩))
  | shr p q => exact .inr (.inr (.inr ⟨_, p, q, isDataInstr_shr p q⟩))

theorem IsDataInstr.ne_jmp {i : Instr} {f : Nat → Nat → Nat → Nat} {dst src : Operand} (h : IsDataInstr i f dst src)
    (target : Operand) : i ≠ .jmp target := by
  rintro rfl
  exact absurd h.opcode_mem (by decide : Opcode.jmp ∉ twoOperandOpcodes)

/-- Everything an instruction can do. -/
theorem exec_cases {i : Instr} {s t : State} (h : exec i s = .next t) :
    (i = .nop ∧ t = s.advancePc) ∨
    (∃ target, i = .jmp target ∧ s.regx = 0 ∧ t = s.setPc (resolve s target)) ∨
    (∃ target, i = .jmp target ∧ s.regx ≠ 0 ∧ t = s.advancePc) ∨
    (∃ what, i = .prt what ∧ t = (s.emit (recordOf s what)).advancePc) ∨
    (∃ f dst src, IsDataInstr i f dst src ∧ t = dataOp (f s.xlen) dst src s) := by
  rcases instr_cases i with rfl | ⟨target, rfl⟩ | ⟨what, rfl⟩ | ⟨f, dst, src, hi⟩
  · cases h
    exact .inl ⟨rfl, rfl⟩
  · by_cases hzero : s.regx = 0
    · rw [exec_jmp_of_regx_eq_zero hzero] at h
      cases h
      exact .inr (.inl ⟨target, rfl, hzero, rfl⟩)
    · rw [exec_jmp_of_regx_ne_zero hzero] at h
      cases h
      exact .inr (.inr (.inl ⟨target, rfl, hzero, rfl⟩))
  · cases h
    exact .inr (.inr (.inr (.inl ⟨what, rfl, rfl⟩)))
  · rw [hi.exec_eq] at h
    cases h
    exact .inr (.inr (.inr (.inr ⟨f, dst, src, hi, rfl⟩)))

/-! ## Frame and `pc` (`10_state.md` section 1, `45_engine.md` section 5) -/

theorem readReg_of_exec {i : Instr} {s t : State} (h : exec i s = .next t) {r : Reg} (hr : destinationOf i ≠ some r) :
    t.readReg r = s.readReg r := by
  rcases exec_cases h with ⟨_, rfl⟩ | ⟨_, _, _, rfl⟩ | ⟨_, _, _, rfl⟩ | ⟨_, _, rfl⟩ | ⟨f, dst, src, hi, rfl⟩
  · exact readReg_advancePc s r
  · exact readReg_setPc s _ r
  · exact readReg_advancePc s r
  · rw [readReg_advancePc, readReg_emit]
  · rw [hi.destination] at hr
    rw [readReg_dataOp, if_neg hr]

/-- `OUT` is left as it was, or the instruction is a `PRT` and appends its record (`44_jmp_prt.md` R128). -/
theorem out_of_exec {i : Instr} {s t : State} (h : exec i s = .next t) :
    t.out = s.out ∨ ∃ what, i = .prt what ∧ t.out = s.out ++ [recordOf s what] := by
  rcases exec_cases h with ⟨_, rfl⟩ | ⟨_, _, _, rfl⟩ | ⟨_, _, _, rfl⟩ | ⟨what, rfl, rfl⟩ | ⟨f, dst, src, _, rfl⟩
  · exact .inl rfl
  · exact .inl rfl
  · exact .inl rfl
  · exact .inr ⟨what, rfl, rfl⟩
  · exact .inl (out_dataOp _ dst src s)

/-- Settles O28: the registers by the destination, the output by the opcode, the rest for every instruction. -/
theorem onlyTheNamedDestinationIsMutated : Obligations.OnlyTheNamedDestinationIsMutated := by
  refine fun i s t h => ⟨fun r => readReg_of_exec h, fun hprt => ?_, exec_engineCells h⟩
  rcases out_of_exec h with hout | ⟨what, rfl, _⟩
  · exact hout
  · exact absurd rfl hprt

/-- Settles O29: of the five things an instruction can do, the taken jump alone does not add 1. -/
theorem pcAdvancesByOneUnlessAJumpIsTaken : Obligations.PcAdvancesByOneUnlessAJumpIsTaken := by
  intro i s t h
  rcases exec_cases h with ⟨rfl, rfl⟩ | ⟨target, rfl, hzero, rfl⟩ | ⟨target, rfl, hne, rfl⟩ | ⟨what, rfl, rfl⟩ | ⟨f, dst, src, hi, rfl⟩
  · exact ⟨fun _ hi => (nomatch hi), fun _ => rfl⟩
  · refine ⟨fun q hq _ => ?_, fun hnot => absurd hzero (hnot target rfl)⟩
    cases hq
    rfl
  · exact ⟨fun _ _ hzero => absurd hzero hne, fun _ => rfl⟩
  · exact ⟨fun _ hi => (nomatch hi), fun _ => rfl⟩
  · exact ⟨fun q hq => absurd hq (hi.ne_jmp q), fun _ => pc_dataOp _ dst src s⟩

/-! ## The most recent value (`40_operand_resolver.md` section 1) -/

theorem writeReg_readReg (s : State) (r : Reg) : s.writeReg r (s.readReg r) = s := by cases r <;> rfl

theorem dataOp_reg (f : Nat → Nat → Nat) (d : Reg) (src : Operand) (s : State) :
    dataOp f (.reg d) src s = (s.writeReg d (f (s.readReg d) (resolve s src))).advancePc := rfl

theorem resolve_lit_of_inputs {s t : State} (h : t.inputs = s.inputs) (v : Int) : resolve t (.lit v) = resolve s (.lit v) := by
  rw [resolve_lit, resolve_lit, xlen_of_inputs h]

/-- Settles O30: the destination holds the resolved source, and writing the value it already holds changes nothing. -/
theorem setThenResolveIsFresh : Obligations.SetThenResolveIsFresh := by
  intro s t u d src ht hu
  have hfresh : resolve t (.reg d) = resolve s src := by
    cases ht
    rw [resolve_reg, readReg_dataOp]
    exact if_pos rfl
  refine ⟨hfresh, ?_⟩
  rintro v rfl
  have hheld : resolve t (.lit v) = t.readReg d := by
    rw [resolve_lit_of_inputs (exec_inputs ht), ← hfresh, resolve_reg]
  cases hu
  rw [dataOp_reg, aluSet, hheld, writeReg_readReg]

/-! ## The cells that are not read (`10_state.md` sections 2 and 3) -/

/-- The cells an instruction may read are the same: the inputs, the four registers and `pc`. -/
structure SameReadable (s s' : State) : Prop where
  inputs : s'.inputs = s.inputs
  regs : SameRegs s s'
  pc : s'.pc = s.pc

theorem SameReadable.resolve {s s' : State} (h : SameReadable s s') (p : Operand) : resolve s' p = resolve s p := by
  cases p with
  | reg r => exact h.regs r
  | lit v => exact resolve_lit_of_inputs h.inputs v

/-- Where the readable cells agree, so do the registers, `pc` and the appended records after the same instruction. -/
theorem exec_congr {i : Instr} {s s' t u : State} (hss : SameReadable s s') (ht : exec i s = .next t) (hu : exec i s' = .next u) :
    SameRegs t u ∧ u.pc = t.pc ∧ ∃ new, t.out = s.out ++ new ∧ u.out = s'.out ++ new := by
  have hpc : s'.advancePc.pc = s.advancePc.pc := congrArg (· + 1) hss.pc
  have hnone : ∃ new, s.out = s.out ++ new ∧ s'.out = s'.out ++ new := ⟨[], by simp, by simp⟩
  rcases instr_cases i with rfl | ⟨target, rfl⟩ | ⟨what, rfl⟩ | ⟨f, dst, src, hi⟩
  · cases ht
    cases hu
    exact ⟨fun r => by simp [hss.regs r], hpc, hnone⟩
  · have hx : s'.regx = s.regx := hss.regs .x
    by_cases hzero : s.regx = 0
    · rw [exec_jmp_of_regx_eq_zero hzero] at ht
      rw [exec_jmp_of_regx_eq_zero (hx.trans hzero)] at hu
      cases ht
      cases hu
      exact ⟨fun r => by simp [hss.regs r], hss.resolve target, hnone⟩
    · rw [exec_jmp_of_regx_ne_zero hzero] at ht
      rw [exec_jmp_of_regx_ne_zero (hx ▸ hzero)] at hu
      cases ht
      cases hu
      exact ⟨fun r => by simp [hss.regs r], hpc, hnone⟩
  · have hrecord : recordOf s' what = recordOf s what := by rw [recordOf, recordOf, hss.resolve what]
    cases ht
    cases hu
    exact ⟨fun r => by simp [hss.regs r], hpc, [recordOf s what], by simp, by simp [hrecord]⟩
  · rw [hi.exec_eq] at ht hu
    cases ht
    cases hu
    refine ⟨fun r => ?_, by simp [hss.pc], [], by simp, by simp⟩
    rw [readReg_dataOp, readReg_dataOp, hss.regs r, hss.resolve src, xlen_of_inputs hss.inputs]

/-- Settles O31: the two machines agree in the cells an instruction may read. -/
theorem statusCellsAreUnreadable : Obligations.StatusCellsAreUnreadable := by
  intro i s t u c e f o ht hu
  have hss : SameReadable s { s with count := c, status := e, fault := f, out := o } := ⟨rfl, fun r => by cases r <;> rfl, rfl⟩
  exact exec_congr hss ht hu

end Sys2Proof.Machine


/-! PROOFS. The step as a whole (`45_engine.md` sections 2 and 3): its end, a comment's step, a faulting step, what it counts and appends, where it
stops, and what it reads of the program store. -/

namespace Sys2Proof.Machine

/-! ## The end of a step and the steps that run no instruction -/

/-- Settles O33: one equation for each answer of the two tests. -/
theorem completedStepIsCountedThenTested : Obligations.CompletedStepIsCountedThenTested := by
  intro s
  split
  case isTrue hceiling => exact completeStep_of_ceiling_lt hceiling
  case isFalse hwithin =>
    have hceiling : s.count + 1 ≤ s.inputs.cfg.ceiling := Nat.le_of_not_lt hwithin
    split
    case isTrue hend => exact completeStep_of_progLen_le hceiling hend
    case isFalse hinside => exact completeStep_of_pc_lt hceiling (Nat.lt_of_not_le hinside)

/-- Settles O35: a fault raised before the line takes effect is `raise` alone. -/
theorem faultStepsChangeNothingElse : Obligations.FaultStepsChangeNothingElse := fun _ _ hs hf =>
  ⟨step_of_decodeFault hs hf, fun _ => step_of_validate_false hs hf⟩

/-- Settles O34: a comment takes effect by the increment of `pc` alone, and is followed by the end of the step. -/
theorem commentStepOnlyAdvancesAndCounts : Obligations.CommentStepOnlyAdvancesAndCounts := by
  intro s line hs hf hcomment
  have hu : CompletesWith s s.advancePc := ⟨line, hf, .inl ⟨hcomment, rfl⟩⟩
  refine ⟨completeStep s.advancePc, step_of_completesWith hs hu, fun r => ?_, ?_, ?_, ?_, ?_, fun hpassed => ?_, fun hwithin => ?_⟩
  · rw [readReg_completeStep, readReg_advancePc]
  · rw [pc_completeStep, pc_advancePc]
  · rw [count_completeStep, count_advancePc]
  · rw [out_completeStep, out_advancePc]
  · rw [inputs_completeStep, inputs_advancePc]
  · rw [completeStep_of_ceiling_lt (s := s.advancePc) hpassed]
    exact ⟨rfl, rfl⟩
  · split
    case isTrue hend =>
      rw [completeStep_of_progLen_le (s := s.advancePc) hwithin hend]
      exact ⟨rfl, rfl⟩
    case isFalse hinside =>
      rw [completeStep_of_pc_lt (s := s.advancePc) hwithin (Nat.lt_of_not_le hinside)]
      exact ⟨rfl, hs⟩

/-! ## What every step counts and appends -/

theorem count_start (s : State) : (start s).count = s.count := by
  rcases start_cases s with ⟨_, h⟩ | ⟨_, _, h⟩ | ⟨_, _, h⟩ <;> simp [h]

theorem out_start (s : State) : (start s).out = s.out := by
  rcases start_cases s with ⟨_, h⟩ | ⟨_, _, h⟩ | ⟨_, _, h⟩ <;> simp [h]

/-- Everything a move can do: nothing in a halted state, Start, a fault raised before the line takes effect, or the line's effect and the end of
the step. -/
theorem step_cases {s t : State} (h : step s = .next t) :
    ((s.status = .haltedSuccess ∨ s.status = .haltedError) ∧ t = s) ∨
    (s.status = .ready ∧ t = start s) ∨
    (s.status = .running ∧ ∃ f, (f = .decodeFault ∨ f = .validationFault) ∧ t = s.raise f) ∨
    (s.status = .running ∧ ∃ u, CompletesWith s u ∧ t = completeStep u) := by
  cases hs : s.status with
  | ready =>
    rw [step_of_ready hs] at h
    cases h
    exact .inr (.inl ⟨rfl, rfl⟩)
  | running =>
    rw [step_of_running hs] at h
    rcases runStep_cases s with ⟨_, hr⟩ | ⟨_, _, _, hr⟩ | ⟨_, _, _, _, _, hr⟩ | ⟨u, hu, hr⟩ <;> rw [hr] at h <;> cases h
    · exact .inr (.inr (.inl ⟨rfl, _, .inl rfl, rfl⟩))
    · exact .inr (.inr (.inl ⟨rfl, _, .inr rfl, rfl⟩))
    · exact .inr (.inr (.inr ⟨rfl, u, hu, rfl⟩))
  | haltedSuccess => exact .inl ⟨.inl rfl, eq_of_step_of_halted (.inl hs) h⟩
  | haltedError => exact .inl ⟨.inr rfl, eq_of_step_of_halted (.inr hs) h⟩

theorem count_of_completesWith {s u : State} (h : CompletesWith s u) : (completeStep u).count = s.count + 1 := by
  obtain ⟨-, -, hcount, -, -⟩ := completesWith_engineCells h
  rw [count_completeStep, hcount]

/-- Settles O42: the end of the step alone counts, and it raises neither of the two faults. -/
theorem countGoesUpByOnePerCompletedStep : Obligations.CountGoesUpByOnePerCompletedStep := by
  intro s t hnone h
  rcases step_cases h with ⟨hs, rfl⟩ | ⟨hs, rfl⟩ | ⟨hs, f, hf, rfl⟩ | ⟨hs, u, hu, rfl⟩
  · rcases hs with hs | hs <;> simp [hs]
  · simp [hs, count_start]
  · rcases hf with rfl | rfl <;> simp
  · have hfault := fault_completeStep_of_completesWith hu
    rw [hnone] at hfault
    rw [count_of_completesWith hu, if_pos]
    split at hfault <;> simp [hs, hfault]

/-- What takes effect leaves `OUT` or is a `PRT` at `pc` that appends its record. -/
theorem out_of_completesWith {s u : State} (h : CompletesWith s u) :
    u.out = s.out ∨ ∃ line what, s.fetch s.pc = some line ∧ decode s.inputs.cfg.tokenMax line = .instr (.prt what) ∧
      u.out = s.out ++ [recordOf s what] := by
  obtain ⟨line, hf, ⟨_, rfl⟩ | ⟨d, i, hd, _, hi, hu⟩⟩ := h
  · exact .inl rfl
  · rcases out_of_exec hu with hout | ⟨what, rfl, hout⟩
    · exact .inl hout
    · exact .inr ⟨line, what, hf, decode_eq_instr_iff.2 ⟨d, hd, hi⟩, hout⟩

/-- Settles O41: of a move's parts the effect of the line alone can write `OUT`. -/
theorem outputIsAppendOnlyByPrt : Obligations.OutputIsAppendOnlyByPrt := by
  refine ⟨rfl, fun s t h => ?_⟩
  rcases step_cases h with ⟨_, rfl⟩ | ⟨_, rfl⟩ | ⟨_, f, _, rfl⟩ | ⟨hs, u, hu, rfl⟩
  · exact .inl rfl
  · exact .inl (out_start s)
  · exact .inl (out_raise s f)
  · rw [out_completeStep]
    rcases out_of_completesWith hu with hout | ⟨line, what, hf, hdec, hout⟩
    · exact .inl hout
    · exact .inr ⟨line, what, hs, hf, hdec, hout⟩

/-! ## The one stop (`20_memory.md` R33) -/

theorem step_of_fetch_none {s : State} (hs : s.status = .running) (hf : s.fetch s.pc = none) :
    step s = .fault .fetchOutsideProgram := by
  simp [step_of_running hs, runStep, hf]

theorem step_next_of_pc_lt {s : State} (hs : s.status = .running) (hpc : s.pc < s.progLen) : ∃ t, step s = .next t := by
  rw [step_of_running hs]
  rcases runStep_cases s with ⟨hout, _⟩ | ⟨_, _, _, hr⟩ | ⟨_, _, _, _, _, hr⟩ | ⟨_, _, hr⟩
  · omega
  · exact ⟨_, hr⟩
  · exact ⟨_, hr⟩
  · exact ⟨_, hr⟩

theorem step_next_of_not_running {s : State} (hs : s.status ≠ .running) : ∃ t, step s = .next t := by
  cases h : s.status with
  | ready => exact ⟨_, step_of_ready h⟩
  | running => exact absurd h hs
  | haltedSuccess => exact ⟨_, step_of_haltedSuccess h⟩
  | haltedError => exact ⟨_, step_of_haltedError h⟩

/-- Settles O43: a line at `pc` always has one of the three verdicts, and no other state fetches. -/
theorem stepFaultsOnlyOutsideTheProgram : Obligations.StepFaultsOnlyOutsideTheProgram := by
  refine fun s => ⟨fun ⟨hs, hpc⟩ => step_of_fetch_none hs ((fetch_eq_none s s.pc).2 hpc), fun h => ?_⟩
  by_cases hs : s.status = .running
  · exact step_next_of_pc_lt hs (h.resolve_left fun hne => hne hs)
  · exact step_next_of_not_running hs

/-! ## Another program of the same length with the same line at `pc` (`20_memory.md` section 1) -/

/-- The machine with another program in the store. -/
def State.withProg (s : State) (prog : List Line) : State := { s with inputs := { s.inputs with prog := prog } }

/-- The resolver reads nothing of the program. -/
theorem resolve_withProg (s : State) (prog : List Line) (p : Operand) : resolve (s.withProg prog) p = resolve s p := by
  cases p with
  | reg r => cases r <;> rfl
  | lit v => rfl

theorem dataOp_withProg (f : Nat → Nat → Nat) (dst src : Operand) (s : State) (prog : List Line) :
    dataOp f dst src (s.withProg prog) = (dataOp f dst src s).withProg prog := by
  cases dst with
  | lit v => rfl
  | reg d =>
    rw [dataOp_reg, dataOp_reg, resolve_withProg]
    cases d <;> rfl

/-- No instruction reads the program. -/
theorem exec_withProg {i : Instr} {s t : State} (h : exec i s = .next t) (prog : List Line) :
    exec i (s.withProg prog) = .next (t.withProg prog) := by
  rcases exec_cases h with ⟨rfl, rfl⟩ | ⟨target, rfl, hzero, rfl⟩ | ⟨target, rfl, hne, rfl⟩ | ⟨what, rfl, rfl⟩ | ⟨f, dst, src, hi, rfl⟩
  · rfl
  · rw [exec_jmp_of_regx_eq_zero (s := s.withProg prog) hzero, resolve_withProg]
    rfl
  · rw [exec_jmp_of_regx_ne_zero (s := s.withProg prog) hne]
    rfl
  · rw [exec_prt, recordOf, resolve_withProg]
    rfl
  · rw [hi.exec_eq, dataOp_withProg]
    rfl

section SameLine

variable {s : State} {prog : List Line}

theorem completesWith_withProg {u : State} (hline : prog[s.pc]? = s.fetch s.pc) (h : CompletesWith s u) :
    CompletesWith (s.withProg prog) (u.withProg prog) := by
  obtain ⟨line, hf, ⟨hd, rfl⟩ | ⟨d, i, hd, hv, hi, hu⟩⟩ := h
  · exact ⟨line, hline.trans hf, .inl ⟨hd, rfl⟩⟩
  · exact ⟨line, hline.trans hf, .inr ⟨d, i, hd, hv, hi, exec_withProg hu prog⟩⟩

/-- Start reads the length alone. -/
theorem start_withProg (hlen : prog.length = s.progLen) : start (s.withProg prog) = (start s).withProg prog := by
  rcases start_cases s with ⟨hload, h⟩ | ⟨hload, hpc, h⟩ | ⟨hload, hpc, h⟩
  · rw [h, start_of_loadOk_false (s := s.withProg prog) hload]
    rfl
  · rw [h, start_of_progLen_le (s := s.withProg prog) hload (hlen.trans_le hpc)]
    rfl
  · rw [h, start_of_pc_lt (s := s.withProg prog) hload (hpc.trans_eq hlen.symm)]
    rfl

/-- So does the end of a step. -/
theorem completeStep_withProg (hlen : prog.length = s.progLen) : completeStep (s.withProg prog) = (completeStep s).withProg prog := by
  rcases completeStep_cases s with ⟨hceiling, h⟩ | ⟨hceiling, hpc, h⟩ | ⟨hceiling, hpc, h⟩
  · rw [h, completeStep_of_ceiling_lt (s := s.withProg prog) hceiling]
    rfl
  · rw [h, completeStep_of_progLen_le (s := s.withProg prog) hceiling (hlen.trans_le hpc)]
    rfl
  · rw [h, completeStep_of_pc_lt (s := s.withProg prog) hceiling (hpc.trans_eq hlen.symm)]
    rfl

theorem runStep_withProg {t : State} (hlen : prog.length = s.progLen) (hline : prog[s.pc]? = s.fetch s.pc) (hs : s.status = .running)
    (h : runStep s = .next t) : step (s.withProg prog) = .next (t.withProg prog) := by
  rcases runStep_cases s with ⟨_, hr⟩ | ⟨line, hf, hd, hr⟩ | ⟨line, d, hf, hd, hv, hr⟩ | ⟨u, hu, hr⟩ <;> rw [hr] at h <;> cases h
  · exact step_of_decodeFault (s := s.withProg prog) hs (hline.trans hf) hd
  · exact step_of_validate_false (s := s.withProg prog) hs (hline.trans hf) hd hv
  · have hlen' : prog.length = u.progLen := by rw [hlen, progLen_of_inputs (completesWith_inputs hu)]
    rw [← completeStep_withProg hlen']
    exact step_of_completesWith hs (completesWith_withProg hline hu)

end SameLine

/-- Settles O40: the line at `pc` decides the verdict, the length the tests, and nothing else of the program is read. -/
theorem onlyTheLineAtPcIsRead : Obligations.OnlyTheLineAtPcIsRead := by
  intro s t prog hlen hline h
  change step (s.withProg prog) = .next (t.withProg prog)
  cases hs : s.status with
  | ready =>
    rw [step_of_ready hs] at h
    cases h
    rw [step_of_ready (s := s.withProg prog) hs, start_withProg hlen]
  | running =>
    rw [step_of_running hs] at h
    exact runStep_withProg hlen hline hs h
  | haltedSuccess =>
    rw [step_of_haltedSuccess hs] at h
    cases h
    exact step_of_haltedSuccess hs
  | haltedError =>
    rw [step_of_haltedError hs] at h
    cases h
    exact step_of_haltedError hs

end Sys2Proof.Machine


/-! PROOFS. The invariant (`10_state.md` section 5) at reset and under every step, progress, and termination (`45_engine.md` section 5). -/

namespace Sys2Proof.Machine

/-! ## Reset (`10_state.md` R25) -/

/-- Settles O45: every cell is 0, empty or at its first value. -/
theorem resetSatisfiesTheInvariant : Obligations.ResetSatisfiesTheInvariant := by
  have hreset (inp : Inputs) (hinp : inp.valid = true) : GoodState (State.powerOn inp) :=
    { inputsValid := hinp
      loadedWhenStarted := by simp [State.powerOn]
      regsInRange := fun r => by cases r <;> exact Nat.two_pow_pos _
      pcInRange := Nat.two_pow_pos _
      runningInside := by simp [State.powerOn]
      successOutside := by simp [State.powerOn]
      countWithin := fun _ => Nat.zero_le _
      countLimit := Nat.zero_le _
      countPast := fun h => by simp [State.powerOn] at h
      faultIffError := by simp [State.powerOn]
      outBounded := Nat.le_refl 0 }
  exact ⟨hreset, hreset Inputs.default (by decide)⟩

/-! ## Progress (`20_memory.md` section 1) -/

/-- A loaded program has fewer lines than a register has values, so `pc` can hold every line's index and one more. -/
theorem length_prog_lt_of_valid {inp : Inputs} (h : inp.valid = true) (hload : inp.loadOk = true) :
    inp.prog.length < 2 ^ inp.cfg.xlen := by
  simp only [Inputs.valid, Config.valid, Memory.wf, hload, Bool.not_true, Bool.false_or, Bool.and_eq_true, decide_eq_true_eq] at h
  obtain ⟨⟨hmax, -⟩, hlen, -⟩ := h
  exact hlen.trans_lt hmax

/-- Settles O47: inside the program every fetch is defined, and the program has fewer than `2 ^ XLEN` lines. -/
theorem invariantMeansProgress : Obligations.InvariantMeansProgress := by
  intro s hg
  refine ⟨(stepFaultsOnlyOutsideTheProgram s).2 (or_iff_not_imp_left.2 fun hs => hg.runningInside (not_not.1 hs)), fun hs => ?_⟩
  have hlen : s.progLen < 2 ^ s.xlen := length_prog_lt_of_valid hg.inputsValid (hg.loadedWhenStarted (.inl hs))
  exact (Nat.succ_le_of_lt (hg.runningInside hs)).trans_lt hlen

/-! ## The cells in range (`10_state.md` R26 (a), (f)) -/

/-- The part of the invariant that says nothing of the engine's state: what the effect of a line keeps. -/
structure CellsInRange (s : State) : Prop where
  inputsValid : s.inputs.valid = true
  regs : ∀ r, s.readReg r < 2 ^ s.xlen
  pc : s.pc < 2 ^ s.xlen
  out : s.out.length ≤ s.count

theorem GoodState.cellsInRange {s : State} (h : GoodState s) : CellsInRange s :=
  ⟨h.inputsValid, h.regsInRange, h.pcInRange, h.outBounded⟩

theorem resolve_lt {s : State} (hregs : ∀ r, s.readReg r < 2 ^ s.xlen) (p : Operand) : resolve s p < 2 ^ s.xlen := by
  cases p with
  | reg r => exact hregs r
  | lit v => exact Nat.mod_lt _ (Nat.two_pow_pos s.xlen)

theorem readReg_lt_of_exec {i : Instr} {s t : State} (hregs : ∀ r, s.readReg r < 2 ^ s.xlen) (h : exec i s = .next t) (r : Reg) :
    t.readReg r < 2 ^ s.xlen := by
  rcases exec_cases h with ⟨_, rfl⟩ | ⟨_, _, _, rfl⟩ | ⟨_, _, _, rfl⟩ | ⟨_, _, rfl⟩ | ⟨f, dst, src, hi, rfl⟩
  · rw [readReg_advancePc]
    exact hregs r
  · rw [readReg_setPc]
    exact hregs r
  · rw [readReg_advancePc]
    exact hregs r
  · rw [readReg_advancePc, readReg_emit]
    exact hregs r
  · rw [readReg_dataOp]
    split
    · exact hi.inRange s.xlen _ _ (hregs r) (resolve_lt hregs src)
    · exact hregs r

theorem pc_of_exec {i : Instr} {s t : State} (h : exec i s = .next t) : t.pc = s.pc + 1 ∨ ∃ target, t.pc = resolve s target := by
  rcases exec_cases h with ⟨_, rfl⟩ | ⟨target, _, _, rfl⟩ | ⟨_, _, _, rfl⟩ | ⟨_, _, rfl⟩ | ⟨_, dst, src, _, rfl⟩
  · exact .inl rfl
  · exact .inr ⟨target, rfl⟩
  · exact .inl rfl
  · exact .inl rfl
  · exact .inl (pc_dataOp _ dst src s)

/-- The effect of a line keeps the cells in range: the operations reduce, `pc` is not yet at the top, and the count pays for the one record. -/
theorem CellsInRange.countStep_of_completesWith {s u : State} (hc : CellsInRange s) (hpc : s.pc + 1 < 2 ^ s.xlen)
    (h : CompletesWith s u) : CellsInRange u.countStep := by
  obtain ⟨hinputs, -, hcount, -, -⟩ := completesWith_engineCells h
  have hxlen : u.xlen = s.xlen := xlen_of_inputs hinputs
  have hout : u.out.length ≤ s.out.length + 1 := by
    rcases out_of_completesWith h with hu | ⟨_, _, _, _, hu⟩ <;> simp [hu]
  obtain ⟨hregs', hpc'⟩ : (∀ r, u.readReg r < 2 ^ s.xlen) ∧ u.pc < 2 ^ s.xlen := by
    obtain ⟨_, _, ⟨_, rfl⟩ | ⟨_, i, _, _, _, hu⟩⟩ := h
    · refine ⟨fun r => ?_, hpc⟩
      rw [readReg_advancePc]
      exact hc.regs r
    · refine ⟨readReg_lt_of_exec hc.regs hu, ?_⟩
      rcases pc_of_exec hu with hnext | ⟨target, hjump⟩
      · rw [hnext]
        exact hpc
      · rw [hjump]
        exact resolve_lt hc.regs target
  refine ⟨?_, fun r => ?_, ?_, ?_⟩
  · rw [inputs_countStep, hinputs]
    exact hc.inputsValid
  · rw [readReg_countStep, xlen_countStep, hxlen]
    exact hregs' r
  · rw [pc_countStep, xlen_countStep, hxlen]
    exact hpc'
  · rw [out_countStep, count_countStep, hcount]
    exact hout.trans (Nat.succ_le_succ hc.out)

/-! ## The three ways a move ends -/

section Ends

variable {s : State} (hc : CellsInRange s)

include hc

theorem goodState_raise {f : FaultKind} (hf : f ≠ .none) (hlimit : s.count ≤ s.inputs.cfg.ceiling + 1)
    (hpast : s.count = s.inputs.cfg.ceiling + 1 → f = .runawayFault) : GoodState (s.raise f) where
  inputsValid := hc.inputsValid
  loadedWhenStarted := by simp
  regsInRange r := by simpa using hc.regs r
  pcInRange := hc.pc
  runningInside := by simp
  successOutside := by simp
  countWithin := by simp
  countLimit := hlimit
  countPast h := ⟨rfl, hpast h⟩
  faultIffError := by simp [hf]
  outBounded := hc.out

theorem goodState_setStatus_haltedSuccess (hload : s.inputs.loadOk = true) (hnone : s.fault = .none)
    (hcount : s.count ≤ s.inputs.cfg.ceiling) (hpc : s.progLen ≤ s.pc) : GoodState (s.setStatus .haltedSuccess) where
  inputsValid := hc.inputsValid
  loadedWhenStarted _ := hload
  regsInRange r := by simpa using hc.regs r
  pcInRange := hc.pc
  runningInside := by simp
  successOutside _ := ⟨hpc, hcount⟩
  countWithin := by simp
  countLimit := Nat.le_succ_of_le hcount
  countPast h := absurd h (Nat.ne_of_lt (Nat.lt_succ_of_le hcount))
  faultIffError := by simp [hnone]
  outBounded := hc.out

theorem goodState_of_running (hs : s.status = .running) (hload : s.inputs.loadOk = true) (hnone : s.fault = .none)
    (hcount : s.count ≤ s.inputs.cfg.ceiling) (hpc : s.pc < s.progLen) : GoodState s where
  inputsValid := hc.inputsValid
  loadedWhenStarted _ := hload
  regsInRange := hc.regs
  pcInRange := hc.pc
  runningInside _ := hpc
  successOutside := by simp [hs]
  countWithin _ := hcount
  countLimit := Nat.le_succ_of_le hcount
  countPast h := absurd h (Nat.ne_of_lt (Nat.lt_succ_of_le hcount))
  faultIffError := by simp [hs, hnone]
  outBounded := hc.out

end Ends

/-! ## Every step keeps the invariant -/

theorem GoodState.fault_none {s : State} (h : GoodState s) (hs : s.status ≠ .haltedError) : s.fault = .none := by
  by_contra hf
  exact hs (h.faultIffError.1 hf)

/-- A fault raised in `Ready` or `Running` comes before the ceiling is passed. -/
theorem GoodState.raise {s : State} (h : GoodState s) (hs : s.status = .ready ∨ s.status = .running) {f : FaultKind} (hf : f ≠ .none) :
    GoodState (s.raise f) := by
  have hcount : s.count ≤ s.inputs.cfg.ceiling := h.countWithin hs
  exact goodState_raise h.cellsInRange hf h.countLimit (by omega)

theorem GoodState.start {s : State} (h : GoodState s) (hs : s.status = .ready) : GoodState (start s) := by
  have hcount : s.count ≤ s.inputs.cfg.ceiling := h.countWithin (.inl hs)
  have hnone : s.fault = .none := h.fault_none (by simp [hs])
  rcases start_cases s with ⟨_, heq⟩ | ⟨hload, hpc, heq⟩ | ⟨hload, hpc, heq⟩ <;> rw [heq]
  · exact h.raise (.inl hs) (by decide)
  · exact goodState_setStatus_haltedSuccess h.cellsInRange hload hnone hcount hpc
  · have hc : CellsInRange (s.setStatus .running) :=
      ⟨h.inputsValid, fun r => by simpa using h.regsInRange r, h.pcInRange, h.outBounded⟩
    exact goodState_of_running hc rfl hload hnone hcount hpc

theorem GoodState.completeStep {s u : State} (h : GoodState s) (hs : s.status = .running) (hu : CompletesWith s u) :
    GoodState (completeStep u) := by
  obtain ⟨hinputs, -, hcount, hstatus, hfault⟩ := completesWith_engineCells hu
  have hc : CellsInRange u.countStep :=
    h.cellsInRange.countStep_of_completesWith ((invariantMeansProgress s h).2 hs) hu
  have hload : u.inputs.loadOk = true := by
    rw [hinputs]
    exact h.loadedWhenStarted (.inl hs)
  have hnone : u.fault = .none := by
    rw [hfault]
    exact h.fault_none (by simp [hs])
  have hbefore : u.count ≤ u.inputs.cfg.ceiling := by
    rw [hcount, hinputs]
    exact h.countWithin (.inr hs)
  rcases completeStep_cases u with ⟨_, heq⟩ | ⟨hwithin, hpc, heq⟩ | ⟨hwithin, hpc, heq⟩ <;> rw [heq]
  · exact goodState_raise hc (by decide) (Nat.succ_le_succ hbefore) fun _ => rfl
  · exact goodState_setStatus_haltedSuccess hc hload hnone hwithin hpc
  · exact goodState_of_running hc (hstatus.trans hs) hload hnone hwithin hpc

/-- Settles O46: each of a move's four outcomes is one of the three good ends, or the state itself. -/
theorem everyStepKeepsTheInvariant : Obligations.EveryStepKeepsTheInvariant := by
  intro s t hg h
  rcases step_cases h with ⟨_, rfl⟩ | ⟨hs, rfl⟩ | ⟨hs, f, hf, rfl⟩ | ⟨hs, u, hu, rfl⟩
  · exact hg
  · exact hg.start hs
  · exact hg.raise (.inr hs) (by rcases hf with rfl | rfl <;> decide)
  · exact hg.completeStep hs hu

/-! ## Termination (`45_engine.md` section 5)

The bound needs of the invariant only what holds from reset with any inputs at all: the count and the place of `pc`. -/

/-- A machine that is not halted has not passed the ceiling, and in `Running` it has a line to fetch. -/
structure OnTrack (s : State) : Prop where
  countWithin : s.halted = false → s.count ≤ s.inputs.cfg.ceiling
  runningInside : s.status = .running → s.pc < s.progLen

/-- The most moves a machine on track can still make: Start, and one step for each count up to `CEILING + 1`. -/
def movesLeft (s : State) : Nat :=
  match s.status with
  | .ready => s.inputs.cfg.ceiling + 2 - s.count
  | .running => s.inputs.cfg.ceiling + 1 - s.count
  | .haltedSuccess => 0
  | .haltedError => 0

theorem movesLeft_le (s : State) : movesLeft s ≤ s.inputs.cfg.ceiling + 2 - s.count := by
  unfold movesLeft
  split <;> omega

theorem movesLeft_of_ready {s : State} (h : s.status = .ready) : movesLeft s = s.inputs.cfg.ceiling + 2 - s.count := by
  simp [movesLeft, h]

theorem movesLeft_of_running {s : State} (h : s.status = .running) : movesLeft s = s.inputs.cfg.ceiling + 1 - s.count := by
  simp [movesLeft, h]

theorem halted_iff {s : State} : s.halted = true ↔ s.status = .haltedSuccess ∨ s.status = .haltedError := by
  simp [State.halted]

theorem ready_or_running_of_not_halted {s : State} (h : s.halted = false) : s.status = .ready ∨ s.status = .running := by
  cases hs : s.status with
  | ready => exact .inl rfl
  | running => exact .inr rfl
  | haltedSuccess => simp [State.halted, hs] at h
  | haltedError => simp [State.halted, hs] at h

theorem movesLeft_of_halted {s : State} (h : s.halted = true) : movesLeft s = 0 := by
  rcases halted_iff.1 h with hs | hs <;> simp [movesLeft, hs]

theorem onTrack_of_halted {s : State} (h : s.halted = true) : OnTrack s :=
  ⟨by simp [h], fun hs => by simp [State.halted, hs] at h⟩

theorem GoodState.onTrack {s : State} (h : GoodState s) : OnTrack s where
  countWithin hh := h.countWithin (ready_or_running_of_not_halted hh)
  runningInside := h.runningInside

theorem onTrack_powerOn (inp : Inputs) : OnTrack (State.powerOn inp) :=
  ⟨fun _ => Nat.zero_le _, fun h => by simp [State.powerOn] at h⟩

/-- What a move does toward the end: it leaves less to do, and stays on track. -/
def Progresses (s t : State) : Prop := OnTrack t ∧ movesLeft t < movesLeft s

theorem progresses_of_halted {s t : State} (hs : 0 < movesLeft s) (ht : t.halted = true) : Progresses s t :=
  ⟨onTrack_of_halted ht, by rwa [movesLeft_of_halted ht]⟩

theorem progresses_start {s : State} (h : OnTrack s) (hs : s.status = .ready) : Progresses s (start s) := by
  have hcount : s.count ≤ s.inputs.cfg.ceiling := h.countWithin (by simp [State.halted, hs])
  have hleft : movesLeft s = s.inputs.cfg.ceiling + 2 - s.count := movesLeft_of_ready hs
  rcases start_cases s with ⟨_, heq⟩ | ⟨_, _, heq⟩ | ⟨_, hpc, heq⟩ <;> rw [heq]
  · exact progresses_of_halted (by omega) rfl
  · exact progresses_of_halted (by omega) rfl
  · refine ⟨⟨fun _ => hcount, fun _ => hpc⟩, ?_⟩
    rw [movesLeft_of_running (status_setStatus s _), inputs_setStatus, count_setStatus]
    omega

theorem progresses_completeStep {s u : State} (h : OnTrack s) (hs : s.status = .running) (hu : CompletesWith s u) :
    Progresses s (completeStep u) := by
  obtain ⟨hinputs, -, hcountU, hstatus, -⟩ := completesWith_engineCells hu
  have hcount : s.count ≤ s.inputs.cfg.ceiling := h.countWithin (by simp [State.halted, hs])
  have hleft : movesLeft s = s.inputs.cfg.ceiling + 1 - s.count := movesLeft_of_running hs
  rcases completeStep_cases u with ⟨_, heq⟩ | ⟨_, _, heq⟩ | ⟨hwithin, hpc, heq⟩ <;> rw [heq]
  · exact progresses_of_halted (by omega) rfl
  · exact progresses_of_halted (by omega) rfl
  · refine ⟨⟨fun _ => hwithin, fun _ => hpc⟩, ?_⟩
    rw [movesLeft_of_running ((status_countStep u).trans (hstatus.trans hs)), inputs_countStep, count_countStep, hinputs, hcountU]
    omega

theorem exists_progress {s : State} (h : OnTrack s) (hh : s.halted = false) : ∃ t, step s = .next t ∧ Progresses s t := by
  obtain ⟨t, ht⟩ := (stepFaultsOnlyOutsideTheProgram s).2 (or_iff_not_imp_left.2 fun hs => h.runningInside (not_not.1 hs))
  refine ⟨t, ht, ?_⟩
  rcases step_cases ht with ⟨hs, _⟩ | ⟨hs, rfl⟩ | ⟨hs, f, _, rfl⟩ | ⟨hs, u, hu, rfl⟩
  · simp [halted_iff.2 hs] at hh
  · exact progresses_start h hs
  · have hcount := h.countWithin hh
    exact progresses_of_halted (by rw [movesLeft_of_running hs]; omega) rfl
  · exact progresses_completeStep h hs hu

/-- Enough moves take a machine on track to a halted state, where further moves change nothing. -/
theorem run_halts {k : Nat} {s : State} (h : OnTrack s) (hk : movesLeft s ≤ k) :
    ∃ t : State, Host.Core.run Sys2Proof.core k s = .next t ∧ t.halted = true := by
  induction k generalizing s with
  | zero =>
    cases hh : s.halted with
    | true => exact ⟨s, run_zero s, hh⟩
    | false =>
      obtain ⟨t, -, -, hless⟩ := exists_progress h hh
      omega
  | succ k ih =>
    cases hh : s.halted with
    | true =>
      have hfixed : step s = .next s := (halted_iff.1 hh).elim step_of_haltedSuccess step_of_haltedError
      exact ⟨s, run_of_fixed hfixed (k + 1), hh⟩
    | false =>
      obtain ⟨t, ht, htrack, hless⟩ := exists_progress h hh
      rw [run_succ_of_next k ht]
      exact ih htrack (by omega)

/-- Settles O48: the moves left go down with every move, from a good state and from reset alike. -/
theorem everyRunHalts : Obligations.EveryRunHalts :=
  ⟨fun s hg => run_halts hg.onTrack (movesLeft_le s),
    fun inp => run_halts (onTrack_powerOn inp) (movesLeft_le (State.powerOn inp))⟩

end Sys2Proof.Machine
